-- ==== Sys2Proof/Word.lean ====
section
/-! DEFINITION. The machine's words: the widths that 00_scope.md R5 fixes, and nothing else. -/

namespace Sys2Proof

/-- A byte of memory, a general register or an 8-bit immediate (R5 REG_W, R110, R304). -/
abbrev Byte := BitVec 8

/-- An instruction word, the program counter or the address register (R5 INSN_W, PC_W, I_W). -/
abbrev Word := BitVec 16

/-- A 12-bit address or immediate, the field nnn (R305). -/
abbrev Addr12 := BitVec 12

end Sys2Proof
end

