-- ==== Sys2Proof/Config.lean ====
section
/-! DEFINITION. What the implementation fixes: the parameters of 00_scope.md R5 ("none is left open").
There is no free value: no rule of the spec leaves one. -/

namespace Sys2Proof

/-- Index of a general register, 0x0 to 0xF (R5 NREG, R101). -/
abbrev RegIdx := Fin 16

/-- A column of the display, 0 to 63, 0 leftmost (R5 DISP_W, R108, R109). -/
abbrev Col := Fin 64

/-- A row of the display, 0 to 31, 0 at the top (R5 DISP_H, R108, R109). -/
abbrev Row := Fin 32

/-- A sprite's height in rows, 0 to 15, the field n (R5 SPRITE_H, R303). -/
abbrev Height := Fin 16

namespace Config

/-- MEM_SIZE: memory holds 4095 bytes (R5, R200, D2). -/
@[simp] abbrev memSize : Nat := 4095

/-- MEM_LAST: the last address that names a byte (R5, R200). -/
@[simp] abbrev memLast : Nat := 0xFFE

/-- The last address at which a two-byte fetch lies in memory (R401). -/
@[simp] abbrev fetchLast : Nat := 0xFFD

/-- LOAD_BASE: where the ROM is loaded and the first fetch happens (R5, R700). -/
@[simp] abbrev loadBase : Nat := 0x200

/-- ROM_MAX: the length of the largest ROM that fits, 0xDFF (R5, R701). -/
@[simp] abbrev romMax : Nat := 0xDFF

/-- SPRITE_W: a sprite row is 8 pixels wide (R5). -/
@[simp] abbrev spriteWidth : Nat := 8

end Config
end Sys2Proof
end

