-- ==== Sys2Proof/Syntax.lean ====
section
/-! DEFINITION. The instructions: one constructor per row of spec/opcode_table.json (30_encoding.md R308). -/

namespace Sys2Proof

/-- The six instructions of R1, with the field values the dispatcher passes on (R404: "the extracted field values
(not register contents)"). -/
inductive Instr where
  /-- CLS, 0x00E0 (R410). -/
  | cls
  /-- JP nnn, 0x1NNN (R420). -/
  | jp (nnn : Addr12)
  /-- LD Vx, nn, 0x6XNN (R430). -/
  | ld (x : RegIdx) (nn : Byte)
  /-- ADD Vx, nn, 0x7XNN (R431). -/
  | add (x : RegIdx) (nn : Byte)
  /-- LD I, nnn, 0xANNN (R432). -/
  | ldI (nnn : Addr12)
  /-- DRW Vx, Vy, n, 0xDXYN (R440). -/
  | drw (x y : RegIdx) (n : Height)
deriving DecidableEq, Repr

end Sys2Proof
end

