-- ==== Sys2Proof/WellFormed.lean ====
section
/-! DEFINITION. What is well formed, as decidable checks: an instruction's fields, a ROM image, a request to read the
display. The operations of the machine do not use these checks; statements and tests do. -/

namespace Sys2Proof

/-- Every operand lies in the range its field has (R301-R305). The operand types carry these bounds, and "every value
of every field ... selects the row" (R308), so every term of Instr passes. -/
def Instr.wellFormed : Instr → Bool
  | .cls => true
  | .jp nnn => decide (nnn.toNat ≤ 0xFFF)
  | .ld x nn => decide (x.val ≤ 0xF) && decide (nn.toNat ≤ 0xFF)
  | .add x nn => decide (x.val ≤ 0xF) && decide (nn.toNat ≤ 0xFF)
  | .ldI nnn => decide (nnn.toNat ≤ 0xFFF)
  | .drw x y n => decide (x.val ≤ 0xF) && decide (y.val ≤ 0xF) && decide (n.val ≤ 0xF)

/-- The ROM fits between 0x200 and 0xFFE (R701, R704: "a ROM of at most 0xDFF bytes"). -/
def romWellFormed (rom : List Byte) : Bool := decide (rom.length ≤ Config.romMax)

/-- The request names a pixel: column 0-63 and row 0-31 (R114). -/
def displayRequestWellFormed (col row : Nat) : Bool := decide (col < 64) && decide (row < 32)

end Sys2Proof
end

