-- ==== Sys2Proof/Decode.lean ====
section
/-! DEFINITION. The field extractors, the decoder, and the encoder (30_encoding.md). The decoder is total on any bytes
and rejects by name. -/

namespace Sys2Proof

/-! ## Field extractors (R301-R307): total, of the word alone, unsigned -/

/-- op(w) = w[15:12], the high nibble (R306). -/
def opField (w : Word) : BitVec 4 := w.extractLsb' 12 4

/-- x(w) = w[11:8], first register index (R301). -/
def xField (w : Word) : RegIdx := ⟨(w.extractLsb' 8 4).toNat, (w.extractLsb' 8 4).isLt⟩

/-- y(w) = w[7:4], second register index (R302). -/
def yField (w : Word) : RegIdx := ⟨(w.extractLsb' 4 4).toNat, (w.extractLsb' 4 4).isLt⟩

/-- n(w) = w[3:0], sprite height (R303). -/
def nField (w : Word) : Height := ⟨(w.extractLsb' 0 4).toNat, (w.extractLsb' 0 4).isLt⟩

/-- nn(w) = w[7:0], 8-bit immediate (R304). -/
def nnField (w : Word) : Byte := w.extractLsb' 0 8

/-- nnn(w) = w[11:0], 12-bit address or immediate (R305). -/
def nnnField (w : Word) : Addr12 := w.extractLsb' 0 12

/-! ## Byte order (R204, R402) -/

/-- The word of two consecutive bytes, the lower address in the high byte: `hi ++ lo` (R204). -/
def wordOfBytes (hi lo : Byte) : Word := hi ++ lo

/-- The byte a word keeps at the lower address (R204). -/
def highByte (w : Word) : Byte := w.extractLsb' 8 8

/-- The byte a word keeps at the higher address (R204). -/
def lowByte (w : Word) : Byte := w.extractLsb' 0 8

/-! ## The decoder -/

/-- Why bytes decode to no instruction. -/
inductive DecodeError where
  /-- Fewer than two bytes: there is no word to decode (R300: every instruction is two bytes). -/
  | truncated (available : Nat)
  /-- No row of R308 selects the word (R310). -/
  | unimplemented (word : Word)
deriving DecidableEq, Repr

/-- Dispatch's choice for one word, in the order of R400: the full word for CLS, then the high nibble (R308, R404). -/
def decodeWord (w : Word) : Except DecodeError Instr :=
  if w = 0x00E0#16 then .ok .cls
  else if opField w = 0x1#4 then .ok (.jp (nnnField w))
  else if opField w = 0x6#4 then .ok (.ld (xField w) (nnField w))
  else if opField w = 0x7#4 then .ok (.add (xField w) (nnField w))
  else if opField w = 0xA#4 then .ok (.ldI (nnnField w))
  else if opField w = 0xD#4 then .ok (.drw (xField w) (yField w) (nField w))
  else .error (.unimplemented w)

/-- The decoder on a run of bytes: one instruction of exactly two bytes (R300, R313) and the bytes after it. -/
def decode : List Byte → Except DecodeError (Instr × List Byte)
  | hi :: lo :: rest =>
    match decodeWord (wordOfBytes hi lo) with
    | .ok i => .ok (i, rest)
    | .error e => .error e
  | short => .error (.truncated short.length)

/-- The instruction of a word numbered as spec/opcode_table.json numbers it: its 16 bits are laid out big-endian
(R204) and given to the decoder. -/
def decodeTableWord (nbits w : Nat) : Option Instr :=
  let word : Word := BitVec.ofNat 16 (w % 2 ^ nbits)
  match decode [highByte word, lowByte word] with
  | .ok (i, _) => some i
  | .error _ => none

/-! ## The opcode table (R308), as rows of mask and match -/

/-- One row of R308: `w` selects it when `w AND mask = pattern`. -/
structure OpcodeRow where
  mnemonic : String
  pattern : Word
  mask : Word
deriving DecidableEq, Repr

/-- Whether the word selects the row (R308). -/
def rowSelects (r : OpcodeRow) (w : Word) : Bool := (w &&& r.mask) == r.pattern

/-- The six rows of R308, in its precedence. -/
def opcodeTable : List OpcodeRow :=
  [⟨"CLS", 0x00E0#16, 0xFFFF#16⟩, ⟨"JP", 0x1000#16, 0xF000#16⟩, ⟨"LD", 0x6000#16, 0xF000#16⟩,
   ⟨"ADD", 0x7000#16, 0xF000#16⟩, ⟨"LD_I", 0xA000#16, 0xF000#16⟩, ⟨"DRW", 0xD000#16, 0xF000#16⟩]

/-- The mnemonic of an instruction's row in spec/opcode_table.json. -/
def mnemonicOf : Instr → String
  | .cls => "CLS"
  | .jp _ => "JP"
  | .ld _ _ => "LD"
  | .add _ _ => "ADD"
  | .ldI _ => "LD_I"
  | .drw _ _ _ => "DRW"

/-! ## The encoder -/

/-- The word of an instruction, its fields side by side as the format of R300 and the table of R314 place them. -/
def encode : Instr → Word
  | .cls => 0x00E0#16
  | .jp nnn => 0x1#4 ++ nnn
  | .ld x nn => 0x6#4 ++ (BitVec.ofNat 4 x.val ++ nn)
  | .add x nn => 0x7#4 ++ (BitVec.ofNat 4 x.val ++ nn)
  | .ldI nnn => 0xA#4 ++ nnn
  | .drw x y n => 0xD#4 ++ (BitVec.ofNat 4 x.val ++ (BitVec.ofNat 4 y.val ++ BitVec.ofNat 4 n.val))

/-- The two bytes of an instruction as memory holds them, high byte first (R204, R300). -/
def encodeBytes (i : Instr) : List Byte := [highByte (encode i), lowByte (encode i)]

end Sys2Proof
end

