-- ==== Sys2Proof/Machine/State.lean ====
section
/-! DEFINITION. The block's state (10_state.md R100, exactly five entities), why a step stops, and the state after reset. -/

namespace Sys2Proof.Machine

/-! ## Memory -/

/-- The bytes of memory that are not zero, as (address, byte) pairs; every other address reads `unlistedByte`. -/
abbrev Memory := List Host.Cell

/-- What an address not listed reads as: zero ("bytes below 0x200 and beyond the ROM's end remain zero", R110, R201). -/
abbrev unlistedByte : Byte := 0#8

/-- The canonical form: addresses strictly rising, none above 0xFFE (R200), no entry equal to the unlisted byte. -/
abbrev Memory.wf (m : Memory) : Prop :=
  m.Pairwise (fun c d => c.1 < d.1) ∧ ∀ c ∈ m, c.1 ≤ Config.memLast ∧ c.2 ≠ unlistedByte

/-! ## Display -/

/-- The display buffer, indexed [x][y]: 64 columns of 32 pixels, true is on (R108). -/
abbrev Display := Vector (Vector Bool 32) 64

/-- Every pixel off (R108, R410). -/
abbrev clearedDisplay : Display := Vector.replicate 64 (Vector.replicate 32 false)

/-! ## State -/

/-- The architectural state (R100). There is no other: no control or status register (R111), no hidden state (R112). -/
structure State where
  /-- Memory, addresses 0x000-0xFFE (R110). -/
  mem : Memory
  /-- The general registers V0-VF; VF is the collision flag (R101, R103). -/
  v : Vector Byte 16
  /-- The program counter (R104). -/
  pc : Word
  /-- The address register I (R107). -/
  i : Word
  /-- The display buffer (R108). -/
  disp : Display
deriving DecidableEq, Repr

/-- Construction from the empty ROM (R700, R702): memory zero, registers and I zero, pc 0x200, display clear.
DESIGN CHOICE: of all ROMs the empty one, which places no program (log entry 1; the loader is `construct`). -/
def State.reset : State where
  mem := []
  v := Vector.replicate 16 0#8
  pc := 0x0200#16
  i := 0x0000#16
  disp := clearedDisplay

/-! ## Outcomes of a STEP -/

/-- What kind of access was out of range (R600, R601). -/
inductive AccessKind where
  /-- Kind 0: an instruction fetch (R603). -/
  | fetch
  /-- Kind 1: a sprite row read by DRW (R604). -/
  | spriteRead
  /-- Kind 2: a ROM too large, at construction (R605). -/
  | romLoad
deriving DecidableEq, Repr

/-- The block's two fault kinds (R600). As an outcome of `step` a fault ends the run of the model, while the block may
be stepped again (R610); that difference is SAFE (log entry 2), and `stateAfter` gives the state the block goes on
from. -/
inductive Fault where
  /-- Raised by dispatch for a word no row of R308 selects (R406, R602); carries the raw word. SAFE. -/
  | unimplemented (word : Word)
  /-- Raised by the fetch (R603), by DRW (R604) or by construction (R605); carries the kind and the address. SAFE. -/
  | addressOutOfRange (kind : AccessKind) (addr : Nat)
deriving DecidableEq, Repr

/-- The status every STEP returns (R113, R600). -/
inductive Status where
  /-- The STEP completed an instruction. -/
  | ok
  /-- The STEP failed: UNIMPLEMENTED(word) or ADDRESS_OUT_OF_RANGE(kind, addr). -/
  | failed (f : Fault)
deriving DecidableEq, Repr

/-- Why the model gives no meaning. No STEP is refused. -/
inductive Refusal where
  /-- An instruction with no meaning yet; no arm of `exec` answers it. SAFE. -/
  | notModelled (mnemonic : String)
  /-- Raised by `displayRead` for a pixel outside 64x32: "not a valid request and a model refuses it" (R114). SAFE. -/
  | displayRequestOutOfRange (col row : Nat)
deriving DecidableEq, Repr

/-- What DRW's loops write: the display, and whether VF has been set to 1 since it was set to 0 (R440). -/
structure Canvas where
  disp : Display
  collision : Bool
deriving DecidableEq, Repr

end Sys2Proof.Machine
end

