-- ==== Sys2Proof/Machine/Ops.lean ====
section
/-! DEFINITION. The named operations over memory, registers, display and program counter, the fetch, and the raising of
a fault. Every meaning is written over these. -/

namespace Sys2Proof.Machine

/-! ## Memory (20_memory.md) -/

/-- MemRead(addr, 1): the byte at an address, its entry or the unlisted byte. Every caller has checked that the address
is at most 0xFFE (R8, R202): the fetch in `State.fetchWord`, DRW by `firstRowOutOfRange`. -/
def Memory.read : Memory → Nat → Byte
  | [], _ => unlistedByte
  | (b, v) :: rest, a => if a = b then v else Memory.read rest a

/-- Put a byte at an address, keeping the addresses rising and listing no unlisted byte. -/
def Memory.put : Memory → Nat → Byte → Memory
  | [], a, v => if v = unlistedByte then [] else [(a, v)]
  | (b, u) :: rest, a, v =>
    if a < b then (if v = unlistedByte then (b, u) :: rest else (a, v) :: (b, u) :: rest)
    else if a = b then (if v = unlistedByte then rest else (b, v) :: rest)
    else (b, u) :: Memory.put rest a v

/-- MemWrite(addr, 1, v) (R203), used by construction only, whose check keeps every address within 0xFFE.
An address above 0xFFE names no byte (R200), so there is nothing to write there. -/
def Memory.write (m : Memory) (a : Nat) (v : Byte) : Memory :=
  if a ≤ Config.memLast then m.put a v else m

/-- Consecutive bytes written from an address on, first byte first (R700's copy loop). -/
def Memory.writeBytes : Memory → Nat → List Byte → Memory
  | m, _, [] => m
  | m, a, v :: rest => Memory.writeBytes (m.write a v) (a + 1) rest

/-! ## General registers (R101) -/

/-- Read V[r]. -/
def State.reg (s : State) (r : RegIdx) : Byte := s.v[r.val]

/-- Write V[r]. -/
def State.setReg (s : State) (r : RegIdx) (b : Byte) : State := { s with v := s.v.set r.val b }

/-! ## Program counter and address register -/

/-- pc <- target (R104). -/
def State.setPc (s : State) (target : Word) : State := { s with pc := target }

/-- The program_counter_incrementor: pc <- pc + 2 (R403). It runs after the check pc <= 0xFFD only, so it does not
wrap (D13). -/
def State.advancePc (s : State) : State := s.setPc (s.pc + 2#16)

/-- I <- v (R107). -/
def State.setI (s : State) (v : Word) : State := { s with i := v }

/-! ## Display (R108) -/

/-- disp[x][y]. -/
def Display.pixel (d : Display) (x : Col) (y : Row) : Bool := (d[x.val])[y.val]

/-- disp[x][y] <- b. -/
def Display.setPixel (d : Display) (x : Col) (y : Row) (b : Bool) : Display :=
  d.set x.val ((d[x.val]).set y.val b)

/-- The state with another display. -/
def State.setDisp (s : State) (d : Display) : State := { s with disp := d }

/-! ## Faults (60_exceptions.md) -/

/-- `raise` (R9): the STEP ends with the fault as its status. There is no trap mechanism, no saved state, no handler
(R608); what the block holds afterwards is `stateAfter` (Transaction.lean). -/
def raise (f : Fault) : Host.Outcome State Fault Refusal := .fault f

/-- The code of an access kind (R601). -/
def AccessKind.code : AccessKind → Nat
  | .fetch => 0
  | .spriteRead => 1
  | .romLoad => 2

/-- The code of a status (R601). -/
def Status.code : Status → Nat
  | .ok => 0
  | .failed (.unimplemented _) => 1
  | .failed (.addressOutOfRange _ _) => 2

/-! ## Fetch (R401, R402) -/

/-- The word at pc, high byte at the lower address, or the fault of R401 when the two bytes do not both lie in
memory: nothing is read, and the recorded address is pc (D3). -/
def State.fetchWord (s : State) : Except Fault Word :=
  if s.pc.toNat ≤ Config.fetchLast then
    .ok (wordOfBytes (s.mem.read s.pc.toNat) (s.mem.read (s.pc.toNat + 1)))
  else .error (.addressOutOfRange .fetch s.pc.toNat)

/-- The state with a word stored where the next fetch reads. Where no fetch can succeed (pc above 0xFFD) there is no
such place and the state is left as it is (log entry 4). -/
def State.placeWord (s : State) (w : Word) : State :=
  if s.pc.toNat ≤ Config.fetchLast then
    { s with mem := (s.mem.write s.pc.toNat (highByte w)).write (s.pc.toNat + 1) (lowByte w) }
  else s

end Sys2Proof.Machine
end

