-- ==== Sys2Proof/Machine/Clear.lean ====
section
/-! DEFINITION. Clear screen (41_clear.md). -/

namespace Sys2Proof.Machine

/-- CLS (R410): every pixel set false; nothing else, VF included, is written. -/
def execCls (s : State) : Host.Outcome State Fault Refusal := .next (s.setDisp clearedDisplay)

end Sys2Proof.Machine
end

