-- ==== Sys2Proof/Machine/Flags.lean ====
section
/-! DEFINITION. The block's only flag: VF, the collision flag (10_state.md R103). ADD computes none (R431, C1). -/

namespace Sys2Proof.Machine

/-- VF is general register 0xF (R5 FLAG, R103). -/
def flagReg : RegIdx := 0xF

/-- VF's value after a DRW: 1 if a collision occurred anywhere during the blit, else 0 (R448). -/
def collisionFlag (collision : Bool) : Byte := if collision then 1#8 else 0#8

/-- VF <- the collision result (R448). -/
def State.setFlag (s : State) (collision : Bool) : State := s.setReg flagReg (collisionFlag collision)

end Sys2Proof.Machine
end

