-- ==== Sys2Proof/Machine/Operands.lean ====
section
/-! DEFINITION. The operand forms: zero-extended immediates, the sprite's anchor, its row addresses and its bits. -/

namespace Sys2Proof.Machine

/-- zext_16(nnn): the field as a 16-bit value with zero high bits (R7, R307). -/
def zext16 (nnn : Addr12) : Word := nnn.setWidth 16

/-- x0 = V[x] mod 64 (R441). -/
def anchorX (s : State) (x : RegIdx) : Nat := (s.reg x).toNat % 64

/-- y0 = V[y] mod 32 (R441). -/
def anchorY (s : State) (y : RegIdx) : Nat := (s.reg y).toNat % 32

/-- Where sprite row `r` is read: I + r, a natural number, never reduced (R443, R445, D21). -/
def spriteRowAddr (base r : Nat) : Nat := base + r

/-- Bit position `b` of a sprite row is the byte's bit 7 - b, most significant first (R447). -/
def spriteBit (row : Byte) (b : Nat) : Bool := row.getLsbD (7 - b)

end Sys2Proof.Machine
end

