-- ==== Sys2Proof/Machine/Draw.lean ====
section
/-! DEFINITION. Draw sprite (44_draw.md): the sprite_blit_collision_detector, loop by loop as R440's pseudocode. -/

namespace Sys2Proof.Machine

/-- One pixel (R447): a 1 bit turns an on pixel off and records the collision, and turns an off pixel on; a 0 bit
leaves it. -/
def drawPixel (x : Col) (y : Row) (bit : Bool) (c : Canvas) : Canvas :=
  if bit then
    if c.disp.pixel x y then ⟨c.disp.setPixel x y false, true⟩
    else ⟨c.disp.setPixel x y true, c.collision⟩
  else c

/-- Step 3c, `for b in 0..8` with `left` positions still to come: a position with x0 + b >= 64 is skipped alone
(R446). -/
def drawBits (x0 : Nat) (y : Row) (row : Byte) : (left b : Nat) → Canvas → Canvas
  | 0, _, c => c
  | left + 1, b, c =>
    drawBits x0 y row left (b + 1) (if h : x0 + b < 64 then drawPixel ⟨x0 + b, h⟩ y (spriteBit row b) c else c)

/-- Step 3, `for r in 0..n` with `left` rows still to come: the first row with y0 + r >= 32 ends the loop (R444); a
drawn row is the byte at I + r (R445), which the check of R443 has found to lie in memory. -/
def drawRows (m : Memory) (base x0 y0 : Nat) : (left r : Nat) → Canvas → Canvas
  | 0, _, c => c
  | left + 1, r, c =>
    if h : y0 + r < 32 then
      drawRows m base x0 y0 left (r + 1)
        (drawBits x0 ⟨y0 + r, h⟩ (m.read (spriteRowAddr base r)) Config.spriteWidth 0 c)
    else c

/-- The check of R443 with `left` rows still to come: the address of the first row that step 3 will read and that
lies above 0xFFE, if there is one. -/
def firstRowOutOfRange (base y0 : Nat) : (left r : Nat) → Option Nat
  | 0, _ => none
  | left + 1, r =>
    if y0 + r ≥ 32 then none
    else if spriteRowAddr base r > Config.memLast then some (spriteRowAddr base r)
    else firstRowOutOfRange base y0 left (r + 1)

/-- DRW Vx, Vy, n (R440). The anchor comes from the registers before VF is written (R441, R450). The bound is checked
before any write (R443). VF counts as 0 when step 3 begins (R442) and holds the collision result at the end (R448);
I, memory and every other register stay (R453). -/
def execDrw (x y : RegIdx) (n : Height) (s : State) : Host.Outcome State Fault Refusal :=
  match firstRowOutOfRange s.i.toNat (anchorY s y) n.val 0 with
  | some a => raise (.addressOutOfRange .spriteRead a)
  | none =>
    let c := drawRows s.mem s.i.toNat (anchorX s x) (anchorY s y) n.val 0 ⟨s.disp, false⟩
    .next ((s.setDisp c.disp).setFlag c.collision)

end Sys2Proof.Machine
end

