-- ==== Sys2Proof/Machine/Immediate.lean ====
section
/-! DEFINITION. Register and address-register immediates (43_register_immediate.md). -/

namespace Sys2Proof.Machine

/-- LD Vx, nn (R430): V[x] <- nn; with x = 0xF the destination is VF itself. -/
def execLd (x : RegIdx) (nn : Byte) (s : State) : Host.Outcome State Fault Refusal := .next (s.setReg x nn)

/-- ADD Vx, nn (R431): V[x] <- (V[x] + nn) mod 256, the sum computed exactly and then narrowed; no carry goes
anywhere, and with x = 0xF VF is the destination (C2). -/
def execAdd (x : RegIdx) (nn : Byte) (s : State) : Host.Outcome State Fault Refusal :=
  .next (s.setReg x (BitVec.ofNat 8 (((s.reg x).toNat + nn.toNat) % 256)))

/-- LD I, nnn (R432): I <- zext_16(NNN), not checked against the memory bound. -/
def execLdI (nnn : Addr12) (s : State) : Host.Outcome State Fault Refusal := .next (s.setI (zext16 nnn))

end Sys2Proof.Machine
end

