-- ==== Sys2Proof/Machine/Jump.lean ====
section
/-! DEFINITION. Jump (42_jump.md). -/

namespace Sys2Proof.Machine

/-- JP nnn (R420): pc <- zext_16(NNN), over the fetch's pc + 2; the target is not checked here (C4). -/
def execJp (nnn : Addr12) (s : State) : Host.Outcome State Fault Refusal := .next (s.setPc (zext16 nnn))

end Sys2Proof.Machine
end

