-- ==== Sys2Proof/Machine/Dispatch.lean ====
section
/-! DEFINITION. Dispatch of a decoded instruction (40_fetch_dispatch.md R404, R405): one arm per constructor. -/

namespace Sys2Proof.Machine

/-- The instruction's state change, at the state whose pc the fetch has already advanced (R105). -/
def exec (i : Instr) (s : State) : Host.Outcome State Fault Refusal :=
  match i with
  | .cls => Sys2Proof.Machine.execCls s
  | .jp nnn => Sys2Proof.Machine.execJp nnn s
  | .ld x nn => Sys2Proof.Machine.execLd x nn s
  | .add x nn => Sys2Proof.Machine.execAdd x nn s
  | .ldI nnn => Sys2Proof.Machine.execLdI nnn s
  | .drw x y n => Sys2Proof.Machine.execDrw x y n s

end Sys2Proof.Machine
end

