-- ==== Sys2Proof/Machine/Transaction.lean ====
section
/-! DEFINITION. STEP as a transaction (40_fetch_dispatch.md R400) and the host's other transactions
(70_reset_and_hazards.md R711): LOAD, DISPLAY_READ, INSPECT, and a run of several STEPs. -/

namespace Sys2Proof.Machine

/-! ## STEP -/

/-- Dispatch of a fetched word (R400, R404, R406): the selected instruction, or UNIMPLEMENTED with the whole word. -/
def dispatchWord (w : Word) (s : State) : Host.Outcome State Fault Refusal :=
  match decodeWord w with
  | .ok i => exec i s
  | .error _ => raise (.unimplemented w)

/-- STEP (R400): fetch, advance pc by 2, dispatch. The checks come in the order of R607. -/
def fetchAndDispatch (s : State) : Host.Outcome State Fault Refusal :=
  match s.fetchWord with
  | .error f => raise f
  | .ok w => dispatchWord w s.advancePc

/-- The block's state after a STEP, whatever its status (R608): after a failed fetch the state before it, after any
other fault that state with pc advanced (R9, R609). -/
def stateAfter (s : State) : State :=
  match s.fetchWord with
  | .error _ => s
  | .ok w =>
    match dispatchWord w s.advancePc with
    | .next t => t
    | .fault _ => s.advancePc
    | .refused _ => s.advancePc

/-- The status a STEP returns (R113, R600). No STEP is refused, so there always is one. -/
def stepStatus (s : State) : Option Status :=
  match fetchAndDispatch s with
  | .next _ => some .ok
  | .fault f => some (.failed f)
  | .refused _ => none

/-! ## A run (R709) -/

/-- The state after `k` STEPs of a host that STEPs again whatever the status (R610, R709). -/
def afterSteps : Nat → State → State
  | 0, s => s
  | k + 1, s => afterSteps k (stateAfter s)

/-- The statuses of `k` STEPs, first STEP first (R709). -/
def statuses : Nat → State → List (Option Status)
  | 0, _ => []
  | k + 1, s => stepStatus s :: statuses k (stateAfter s)

/-! ## LOAD (R700, R701, R703) -/

/-- Construction from a ROM image: the state of R702, or ADDRESS_OUT_OF_RANGE(ROM_LOAD, 0xFFF) and no state. -/
def construct (rom : List Byte) : Except Fault State :=
  if Config.loadBase + rom.length > 0xFFF then .error (.addressOutOfRange .romLoad 0xFFF)
  else .ok
    { mem := Memory.writeBytes [] Config.loadBase rom
      v := Vector.replicate 16 0#8
      pc := 0x0200#16
      i := 0x0000#16
      disp := clearedDisplay }

/-! ## DISPLAY_READ and INSPECT (R114, R711) -/

/-- DISPLAY_READ(column, row): the pixel; a request outside the display is refused (R114). It changes nothing. -/
def displayRead (s : State) (col row : Nat) : Host.Outcome Bool Fault Refusal :=
  if hc : col < 64 then
    if hr : row < 32 then .next (s.disp.pixel ⟨col, hc⟩ ⟨row, hr⟩)
    else .refused (.displayRequestOutOfRange col row)
  else .refused (.displayRequestOutOfRange col row)

/-- INSPECT: the whole state, read without effect (R114, D17). -/
def inspect (s : State) : Memory × Vector Byte 16 × Word × Word × Display := (s.mem, s.v, s.pc, s.i, s.disp)

end Sys2Proof.Machine
end

