-- ==== Sys2Proof/Machine/Step.lean ====
section
/-! DEFINITION. The step function the host runs, and where it places a word to be fetched. -/

namespace Sys2Proof.Machine

/-- One STEP (R400). -/
def step (s : State) : Host.Outcome State Fault Refusal := fetchAndDispatch s

/-- The state with the table's word `w` (its low `nbits` bits) stored where `step` fetches next. -/
def State.withFetchWord (s : State) (nbits w : Nat) : State := s.placeWord (BitVec.ofNat 16 (w % 2 ^ nbits))

end Sys2Proof.Machine
end

