-- ==== Sys2Proof/Safety.lean ====
section
/-! DEFINITION. What counts as a reachable state, a fault-free run and a good state, in the terms statements use. -/

namespace Sys2Proof.Machine

/-- The states at step boundaries of the block: constructed from some ROM, then stepped, whatever the statuses
(R610, R709). -/
inductive Reachable : State → Prop where
  | constructed {rom : List Byte} {s : State} : construct rom = .ok s → Reachable s
  | stepped {s : State} : Reachable s → Reachable (stateAfter s)

/-- A run of `k` STEPs in which every STEP returned OK (R709). -/
def FaultFree (k : Nat) (s : State) : Prop := ∀ st ∈ statuses k s, st = some Status.ok

/-- What holds at every step boundary: pc <= 0xFFF (R106), I <= 0xFFF (R107), memory in its canonical form. -/
abbrev State.Inv (s : State) : Prop := s.pc.toNat ≤ 0xFFF ∧ s.i.toNat ≤ 0xFFF ∧ s.mem.wf

/-! ## The sprite as a picture: DRW's effect without its loops -/

/-- Every row DRW reads lies in memory (R443): the rows are those not vertically clipped. -/
abbrev rowsFit (s : State) (y : RegIdx) (n : Height) : Prop :=
  ∀ r < n.val, (s.reg y).toNat % 32 + r < 32 → s.i.toNat + r ≤ 0xFFE

/-- Whether the sprite of DRW Vx, Vy, n at state `s` has a 1 bit at pixel (px, py): the pixel lies in the sprite's
rectangle, which starts at (V[x] mod 64, V[y] mod 32) and is not wrapped, and its bit is 1 (R441, R444-R447). -/
def spriteCovers (s : State) (x y : RegIdx) (n : Height) (px : Col) (py : Row) : Bool :=
  let x0 := (s.reg x).toNat % 64
  let y0 := (s.reg y).toNat % 32
  decide (x0 ≤ px.val ∧ px.val < x0 + 8 ∧ y0 ≤ py.val ∧ py.val < y0 + n.val) &&
    (s.mem.read (s.i.toNat + (py.val - y0))).getLsbD (7 - (px.val - x0))

end Sys2Proof.Machine
end

