-- ==== Sys2Proof/Certificates/Slice0/Obligations.lean ====
section
/-! DEFINITION. The statements for the provers. `exec i s` is dispatch at the state `s` whose pc the fetch has already
advanced (R105); `step` is a whole STEP; `stateAfter` is the block's state after a STEP, faulting or not (R608). A
statement that an instruction leaves memory alone says so of every address's byte. -/

open Sys2Proof Sys2Proof.Machine

/-! ## Encoding -/

/-- R301-R306: each field is the unsigned value of its bits, as division and remainder of the word's value. -/
def Obligations.FieldExtractorsReadTheirBits : Prop :=
  ∀ w : Word,
    (opField w).toNat = w.toNat / 4096 ∧ (xField w).val = w.toNat / 256 % 16 ∧ (yField w).val = w.toNat / 16 % 16 ∧
    (nField w).val = w.toNat % 16 ∧ (nnField w).toNat = w.toNat % 256 ∧ (nnnField w).toNat = w.toNat % 4096

/-- Words written out from the encodings of R308 and R314 (vectors DEC-01 to DEC-15) and what they decode to. -/
def Obligations.SampleWordsDecodeAsSpecified : Prop :=
  decodeWord 0b0000000011100000#16 = .ok .cls ∧
  decodeWord 0b0001111111111111#16 = .ok (.jp 0xFFF#12) ∧
  decodeWord 0b0110101001000010#16 = .ok (.ld 0xA 0x42#8) ∧
  decodeWord 0b0111111111111111#16 = .ok (.add 0xF 0xFF#8) ∧
  decodeWord 0b1010000100100011#16 = .ok (.ldI 0x123#12) ∧
  decodeWord 0b1101000100101111#16 = .ok (.drw 0x1 0x2 0xF) ∧
  decodeWord 0x00E1#16 = .error (.unimplemented 0x00E1#16) ∧
  decodeWord 0x8014#16 = .error (.unimplemented 0x8014#16)

/-- R308: a word is decoded by the row whose mask and match select it, with that row's fields; the rows are disjoint;
a word no row selects is rejected as a whole. -/
def Obligations.DecodingFollowsTheOpcodeTable : Prop :=
  ∀ w : Word,
    (w &&& 0xFFFF#16 = 0x00E0#16 → decodeWord w = .ok .cls) ∧
    (w &&& 0xF000#16 = 0x1000#16 → decodeWord w = .ok (.jp (nnnField w))) ∧
    (w &&& 0xF000#16 = 0x6000#16 → decodeWord w = .ok (.ld (xField w) (nnField w))) ∧
    (w &&& 0xF000#16 = 0x7000#16 → decodeWord w = .ok (.add (xField w) (nnField w))) ∧
    (w &&& 0xF000#16 = 0xA000#16 → decodeWord w = .ok (.ldI (nnnField w))) ∧
    (w &&& 0xF000#16 = 0xD000#16 → decodeWord w = .ok (.drw (xField w) (yField w) (nField w))) ∧
    (opcodeTable.Pairwise fun r q => ¬(rowSelects r w = true ∧ rowSelects q w = true)) ∧
    ((∀ r ∈ opcodeTable, rowSelects r w = false) → decodeWord w = .error (.unimplemented w))

/-- R309, R310: which words are unimplemented, and how many they are; dispatching one raises Unimplemented(word). -/
def Obligations.UnimplementedSpaceIsAsCounted : Prop :=
  (∀ w : Word, decodeWord w = .error (.unimplemented w) ↔
    (opField w = 0x0#4 ∧ w ≠ 0x00E0#16) ∨
      opField w ∈ [0x2#4, 0x3#4, 0x4#4, 0x5#4, 0x8#4, 0x9#4, 0xB#4, 0xC#4, 0xE#4, 0xF#4]) ∧
  (∀ (w : Word) (s : State), decodeWord w = .error (.unimplemented w) →
    dispatchWord w s = .fault (.unimplemented w)) ∧
  (List.range 65536).countP (fun k => (decodeWord (BitVec.ofNat 16 k)).toOption.isSome) = 20481 ∧
  (List.range 65536).countP (fun k => (decodeWord (BitVec.ofNat 16 k)).toOption.isNone) = 45055 ∧
  (List.range 4096).countP (fun k => (decodeWord (BitVec.ofNat 16 k)).toOption.isNone) = 4095

/-- Every instruction's two bytes decode to it, with every operand at every value, and the bytes after them are left
(R300, R308, R313). -/
def Obligations.DecodeOfEncodeIsTheInstruction : Prop :=
  ∀ (i : Instr) (rest : List Byte), decode (encodeBytes i ++ rest) = .ok (i, rest)

/-- An implemented word is the encoding of what it decodes to: "there are no don't-care bits" (R308). -/
def Obligations.EncodeOfDecodeIsTheWord : Prop :=
  ∀ (w : Word) (i : Instr), decodeWord w = .ok i → encode i = w

/-! ## STEP: fetch, advance, dispatch -/

/-- R400: a STEP whose two bytes at pc decode to an instruction is that instruction at the state with pc advanced by 2. -/
def Obligations.StepRunsTheDecodedInstruction : Prop :=
  ∀ (s : State) (i : Instr), s.pc.toNat ≤ 0xFFD →
    decodeWord (wordOfBytes (s.mem.read s.pc.toNat) (s.mem.read (s.pc.toNat + 1))) = .ok i →
    step s = exec i { s with pc := s.pc + 2#16 }

/-- R402: the fetched word is 256 times the byte at pc plus the byte at pc + 1; R206: at every pc up to 0xFFD, odd or
even, and pc keeps its parity until a JP. -/
def Obligations.FetchIsBigEndianAtAnyAlignment : Prop :=
  ∀ s : State, s.pc.toNat ≤ 0xFFD →
    ∃ w : Word, s.fetchWord = .ok w ∧
      w.toNat = 256 * (s.mem.read s.pc.toNat).toNat + (s.mem.read (s.pc.toNat + 1)).toNat ∧
      (w &&& 0xF000#16 ≠ 0x1000#16 → (stateAfter s).pc.toNat % 2 = s.pc.toNat % 2)

/-- R401: a fetch above 0xFFD fails before reading and writes nothing, so every further STEP fails in the same way; of
the reachable values of pc only 0xFFE and 0xFFF do so. -/
def Obligations.FetchBeyondMemoryFailsForEver : Prop :=
  (∀ s : State, 0xFFD < s.pc.toNat →
    step s = .fault (.addressOutOfRange .fetch s.pc.toNat) ∧ stateAfter s = s ∧
    ∀ k, afterSteps k s = s ∧
      statuses k s = List.replicate k (some (.failed (.addressOutOfRange .fetch s.pc.toNat)))) ∧
  (∀ s : State, Reachable s → 0xFFD < s.pc.toNat → s.pc.toNat = 0xFFE ∨ s.pc.toNat = 0xFFF)

/-- R403, R105: after a successful fetch pc is two further when the dispatch begins, and it stays so whatever the word
is and whatever the status, unless the word is a JP; the sum does not wrap. A failed fetch advances nothing. -/
def Obligations.EverySuccessfulFetchAdvancesPcByTwo : Prop :=
  (∀ (s : State) (w : Word), s.fetchWord = .ok w →
    step s = dispatchWord w { s with pc := s.pc + 2#16 } ∧
    (s.pc + 2#16).toNat = s.pc.toNat + 2 ∧ s.pc.toNat + 2 ≤ 0xFFF ∧
    (w &&& 0xF000#16 ≠ 0x1000#16 → (stateAfter s).pc.toNat = s.pc.toNat + 2)) ∧
  (∀ (s : State) (f : Fault), s.fetchWord = .error f → (stateAfter s).pc = s.pc)

/-- R406, R602: a word no row selects ends the STEP as UNIMPLEMENTED with the whole word; only pc has changed, and
the word's address is pc - 2 afterwards. No instruction raises that fault. -/
def Obligations.UnimplementedWordFaultsAndChangesOnlyPc : Prop :=
  (∀ (s : State) (w : Word), s.fetchWord = .ok w → (∀ r ∈ opcodeTable, rowSelects r w = false) →
    step s = .fault (.unimplemented w) ∧ stateAfter s = { s with pc := s.pc + 2#16 } ∧
    (stateAfter s).pc - 2#16 = s.pc) ∧
  (∀ (i : Instr) (s : State) (w : Word), exec i s ≠ .fault (.unimplemented w))

/-- R607: exactly when a STEP fails and with which fault, in the order fetch bound, decode, row bound; a construction
fails only as ROM_LOAD. -/
def Obligations.StepFaultsExactlyInTheThreeCases : Prop :=
  (∀ (rom : List Byte) (f : Fault), construct rom = .error f → f = .addressOutOfRange .romLoad 0xFFF) ∧
  ∀ (s : State) (f : Fault), step s = .fault f ↔
    (0xFFD < s.pc.toNat ∧ f = .addressOutOfRange .fetch s.pc.toNat) ∨
    (∃ w, s.fetchWord = .ok w ∧ decodeWord w = .error (.unimplemented w) ∧ f = .unimplemented w) ∨
    (∃ w x y n r, s.fetchWord = .ok w ∧ decodeWord w = .ok (.drw x y n) ∧
      r < min n.val (32 - (s.reg y).toNat % 32) ∧ 0xFFE < s.i.toNat + r ∧ (∀ q < r, s.i.toNat + q ≤ 0xFFE) ∧
      f = .addressOutOfRange .spriteRead (s.i.toNat + r))

/-- R608, R609: what each fault leaves. -/
def Obligations.FaultLeavesNothingButThePcAdvance : Prop :=
  ∀ (s : State) (f : Fault), step s = .fault f →
    (∃ a, f = .addressOutOfRange .fetch a ∧ stateAfter s = s) ∨
    (∃ w, f = .unimplemented w ∧ stateAfter s = { s with pc := s.pc + 2#16 }) ∨
    (∃ a, f = .addressOutOfRange .spriteRead a ∧ stateAfter s = { s with pc := s.pc + 2#16 })

/-- R113, R600: every STEP returns exactly one status, which tells a completed instruction from a fault and one fault
from another; a construction gives a state or the one fault ROM_LOAD. -/
def Obligations.EveryTransactionReturnsOneStatus : Prop :=
  (∀ s : State,
    (∃ t, step s = .next t ∧ stateAfter s = t ∧ stepStatus s = some .ok) ∨
    (∃ f, step s = .fault f ∧ stepStatus s = some (.failed f) ∧
      ((∃ w, f = .unimplemented w) ∨ (∃ a, f = .addressOutOfRange .fetch a) ∨
        (∃ a, f = .addressOutOfRange .spriteRead a)))) ∧
  (∀ rom : List Byte, (∃ s, construct rom = .ok s) ∨ construct rom = .error (.addressOutOfRange .romLoad 0xFFF))

/-! ## The instructions -/

/-- R410: CLS. -/
def Obligations.ClsTurnsEveryPixelOff : Prop :=
  (∀ w : Word, decodeWord w = .ok .cls ↔ w = 0x00E0#16) ∧
  ∀ s : State, ∃ t, exec .cls s = .next t ∧ (∀ x y, t.disp.pixel x y = false) ∧ (∀ r, t.reg r = s.reg r) ∧
    t.pc = s.pc ∧ t.i = s.i ∧ ∀ a, t.mem.read a = s.mem.read a

/-- R420: JP, at dispatch and over a whole STEP; no target is refused. -/
def Obligations.JpSetsPcToItsTarget : Prop :=
  (∀ (nnn : Addr12) (s : State), ∃ t, exec (.jp nnn) s = .next t ∧ t.pc.toNat = nnn.toNat ∧
    (∀ r, t.reg r = s.reg r) ∧ t.i = s.i ∧ t.disp = s.disp ∧ ∀ a, t.mem.read a = s.mem.read a) ∧
  (∀ (s : State) (w : Word), s.fetchWord = .ok w → w &&& 0xF000#16 = 0x1000#16 →
    ∃ t, step s = .next t ∧ t.pc.toNat = w.toNat % 4096)

/-- R430: LD Vx, nn, for every x, VF among them. -/
def Obligations.LdSetsItsRegister : Prop :=
  (∀ w : Word, w &&& 0xF000#16 = 0x6000#16 → decodeWord w = .ok (.ld (xField w) (nnField w))) ∧
  ∀ (x : RegIdx) (nn : Byte) (s : State), ∃ t, exec (.ld x nn) s = .next t ∧ t.reg x = nn ∧
    (∀ r, r ≠ x → t.reg r = s.reg r) ∧ t.pc = s.pc ∧ t.i = s.i ∧ t.disp = s.disp ∧
    ∀ a, t.mem.read a = s.mem.read a

/-- R431: ADD Vx, nn, for every x; for x other than 0xF, VF is among the registers unchanged. -/
def Obligations.AddWrapsModulo256AndWritesNoFlag : Prop :=
  (∀ w : Word, w &&& 0xF000#16 = 0x7000#16 → decodeWord w = .ok (.add (xField w) (nnField w))) ∧
  ∀ (x : RegIdx) (nn : Byte) (s : State), ∃ t, exec (.add x nn) s = .next t ∧
    (t.reg x).toNat = ((s.reg x).toNat + nn.toNat) % 256 ∧
    (∀ r, r ≠ x → t.reg r = s.reg r) ∧ t.pc = s.pc ∧ t.i = s.i ∧ t.disp = s.disp ∧
    ∀ a, t.mem.read a = s.mem.read a

/-- R432: LD I, nnn; the upper four bits of I are zero afterwards. -/
def Obligations.LdISetsTheAddressRegister : Prop :=
  (∀ w : Word, w &&& 0xF000#16 = 0xA000#16 → decodeWord w = .ok (.ldI (nnnField w))) ∧
  ∀ (nnn : Addr12) (s : State), ∃ t, exec (.ldI nnn) s = .next t ∧ t.i.toNat = nnn.toNat ∧
    t.i.extractLsb' 12 4 = 0#4 ∧ (∀ r, t.reg r = s.reg r) ∧ t.pc = s.pc ∧ t.disp = s.disp ∧
    ∀ a, t.mem.read a = s.mem.read a

/-- R441, R444-R446 and what R447 says of pixels (of collisions: `DrwReportsTheCollisionInVF`): a DRW whose rows lie in memory completes, and its loops do to the display exactly what the
sprite as a picture says: each pixel becomes old XOR bit, with the anchor wrapped and the sprite clipped. -/
def Obligations.DrwXorsTheClippedSpriteOntoTheDisplay : Prop :=
  ∀ (x y : RegIdx) (n : Height) (s : State), rowsFit s y n →
    ∃ t, exec (.drw x y n) s = .next t ∧
      ∀ px py, t.disp.pixel px py = (s.disp.pixel px py ^^ spriteCovers s x y n px py)

/-- R442, R448: VF is written by every DRW that does not fault: 1 if a 1 bit met an on pixel, else 0. -/
def Obligations.DrwReportsTheCollisionInVF : Prop :=
  ∀ (x y : RegIdx) (n : Height) (s : State), rowsFit s y n →
    ∃ t, exec (.drw x y n) s = .next t ∧
      ((∃ px py, spriteCovers s x y n px py = true ∧ s.disp.pixel px py = true) → t.reg 0xF = 1#8) ∧
      ((¬∃ px py, spriteCovers s x y n px py = true ∧ s.disp.pixel px py = true) → t.reg 0xF = 0#8)

/-- R453: whenever DRW answers a next state, I, pc, every byte of memory and every register other than VF are as
before. -/
def Obligations.DrwLeavesEverythingButDisplayAndVF : Prop :=
  ∀ (x y : RegIdx) (n : Height) (s t : State), exec (.drw x y n) s = .next t →
    (∀ r, r ≠ 0xF → t.reg r = s.reg r) ∧ t.pc = s.pc ∧ t.i = s.i ∧ ∀ a, t.mem.read a = s.mem.read a

/-- R443: exactly when a DRW faults, with the first offending row's address, and that the failing STEP has changed
nothing but pc. -/
def Obligations.DrwChecksEveryRowBeforeWriting : Prop :=
  (∀ (x y : RegIdx) (n : Height) (s : State) (f : Fault), exec (.drw x y n) s = .fault f ↔
    ∃ r, r < min n.val (32 - (s.reg y).toNat % 32) ∧ 0xFFE < s.i.toNat + r ∧
      (∀ q < r, s.i.toNat + q ≤ 0xFFE) ∧ f = .addressOutOfRange .spriteRead (s.i.toNat + r)) ∧
  (∀ (x y : RegIdx) (n : Height) (s : State) (w : Word) (f : Fault), s.fetchWord = .ok w →
    decodeWord w = .ok (.drw x y n) → step s = .fault f → stateAfter s = { s with pc := s.pc + 2#16 })

/-- R449: a DRW of no rows completes whatever I is, leaves every pixel, and clears VF. -/
def Obligations.DrwOfNoRowsOnlyClearsVF : Prop :=
  ∀ (x y : RegIdx) (s : State), ∃ t, exec (.drw x y 0) s = .next t ∧ t.disp = s.disp ∧ t.reg 0xF = 0#8 ∧
    (∀ r, r ≠ 0xF → t.reg r = s.reg r) ∧ t.pc = s.pc ∧ t.i = s.i ∧ ∀ a, t.mem.read a = s.mem.read a

/-- R441, R450, R451: of the registers a DRW depends only on V[x] mod 64 and V[y] mod 32 before it, whichever
registers x and y are, VF or one another included. -/
def Obligations.DrwDependsOnlyOnItsAnchor : Prop :=
  ∀ (x y x' y' : RegIdx) (n : Height) (s t : State) (v' : Vector Byte 16),
    v'[x'.val].toNat % 64 = (s.reg x).toNat % 64 → v'[y'.val].toNat % 32 = (s.reg y).toNat % 32 →
    exec (.drw x y n) s = .next t →
    ∃ t', exec (.drw x' y' n) { s with v := v' } = .next t' ∧ t'.disp = t.disp ∧ t'.reg 0xF = t.reg 0xF

/-- R444, R445, R207: of memory a DRW depends only on the bytes at I + r for the rows not vertically clipped; any
other memory gives the same outcome with that memory in place. -/
def Obligations.DrwReadsOnlyTheRowsItDraws : Prop :=
  ∀ (x y : RegIdx) (n : Height) (s : State) (m : Memory),
    (∀ r < n.val, (s.reg y).toNat % 32 + r < 32 → m.read (s.i.toNat + r) = s.mem.read (s.i.toNat + r)) →
    exec (.drw x y n) { s with mem := m } =
      match exec (.drw x y n) s with
      | .next t => .next { t with mem := m }
      | .fault f => .fault f
      | .refused r => .refused r

/-- R454: the second of two equal draws restores the display, and its VF is 1 exactly when some drawn 1 bit lay on a
pixel that was off before the first; a draw over no on pixel leaves VF 0; with VF as a coordinate the restoring can
fail. -/
def Obligations.DrawingTwiceRestoresTheDisplay : Prop :=
  (∀ (x y : RegIdx) (n : Height) (s t : State) (p : Word), x ≠ 0xF → y ≠ 0xF → exec (.drw x y n) s = .next t →
    ∃ u, exec (.drw x y n) { t with pc := p } = .next u ∧ u.disp = s.disp ∧
      (u.reg 0xF = 1#8 ↔ ∃ px py, spriteCovers s x y n px py = true ∧ s.disp.pixel px py = false) ∧
      (u.reg 0xF = 0#8 ↔ ¬∃ px py, spriteCovers s x y n px py = true ∧ s.disp.pixel px py = false)) ∧
  (∀ (x y : RegIdx) (n : Height) (s t : State), exec (.drw x y n) s = .next t →
    (∀ px py, spriteCovers s x y n px py = true → s.disp.pixel px py = false) → t.reg 0xF = 0#8) ∧
  (∃ (y : RegIdx) (n : Height) (s t u : State), exec (.drw 0xF y n) s = .next t ∧ exec (.drw 0xF y n) t = .next u ∧
    u.disp ≠ s.disp)

/-! ## Whole-machine rules: who writes what -/

/-- R102, R103: a STEP changes a general register only as LD or ADD of that register, or as a DRW when it is VF. -/
def Obligations.OnlyLdAddAndDrwWriteRegisters : Prop :=
  ∀ (s : State) (r : RegIdx), (stateAfter s).reg r ≠ s.reg r →
    ∃ w i, s.fetchWord = .ok w ∧ decodeWord w = .ok i ∧
      ((∃ nn, i = .ld r nn) ∨ (∃ nn, i = .add r nn) ∨ (r = 0xF ∧ ∃ x y n, i = .drw x y n))

/-- R108: a STEP changes a pixel only as CLS, which turns it off, or as a DRW. -/
def Obligations.OnlyClsAndDrwWriteTheDisplay : Prop :=
  ∀ (s : State) (x : Col) (y : Row), (stateAfter s).disp.pixel x y ≠ s.disp.pixel x y →
    ∃ w i, s.fetchWord = .ok w ∧ decodeWord w = .ok i ∧
      ((i = .cls ∧ (stateAfter s).disp.pixel x y = false) ∨ ∃ a b n, i = .drw a b n)

/-- R104: pc is written by the fetch (+2), by JP (its target) and by construction (0x200), and by nothing else. -/
def Obligations.OnlyFetchJpAndConstructionWritePc : Prop :=
  (∀ s : State,
    (0xFFD < s.pc.toNat ∧ (stateAfter s).pc = s.pc) ∨
    (∃ w, s.fetchWord = .ok w ∧ w &&& 0xF000#16 = 0x1000#16 ∧ (stateAfter s).pc.toNat = w.toNat % 4096) ∨
    (∃ w, s.fetchWord = .ok w ∧ w &&& 0xF000#16 ≠ 0x1000#16 ∧ (stateAfter s).pc.toNat = s.pc.toNat + 2)) ∧
  (∀ (rom : List Byte) (s : State), construct rom = .ok s → s.pc.toNat = 0x200)

/-- R107: I is written by LD I with its zero-extended operand and by construction with 0, and by nothing else; it never
exceeds 0xFFF. -/
def Obligations.OnlyLdIWritesTheAddressRegister : Prop :=
  (∀ s : State, (stateAfter s).i ≠ s.i →
    ∃ w, s.fetchWord = .ok w ∧ w &&& 0xF000#16 = 0xA000#16 ∧ (stateAfter s).i.toNat = w.toNat % 4096) ∧
  (∀ (rom : List Byte) (s : State), construct rom = .ok s → s.i = 0#16) ∧
  (∀ s : State, Reachable s → s.i.toNat ≤ 0xFFF)

/-- R110, R203: no STEP writes memory, so a run of any length leaves the construction image: the ROM from 0x200 on and
zero elsewhere, at every address that names a byte (R200; above, `NoByteAboveMemoryIsEverListed`). -/
def Obligations.MemoryKeepsItsConstructionContents : Prop :=
  (∀ (s : State) (k a : Nat), (afterSteps k s).mem.read a = s.mem.read a) ∧
  (∀ (rom : List Byte) (s : State) (k a : Nat), construct rom = .ok s → a ≤ 0xFFE →
    (afterSteps k s).mem.read a = if 0x200 ≤ a then rom.getD (a - 0x200) 0#8 else 0#8)

/-! ## Invariants -/

/-- From every state that meets the invariant a STEP that completes gives one that meets it, and so does a STEP that
faults (R106, R107; the canonical memory is the model's own form). -/
def Obligations.EveryStepKeepsTheInvariant : Prop :=
  (∀ s t : State, s.Inv → step s = .next t → t.Inv) ∧ (∀ s : State, s.Inv → (stateAfter s).Inv)

/-- Every construction gives a state that meets the invariant; the reset state is the construction from the empty ROM
(the model's choice, log entry 1) and meets it too. -/
def Obligations.ConstructionAndResetMeetTheInvariant : Prop :=
  (∀ (rom : List Byte) (s : State), construct rom = .ok s → s.Inv) ∧
  construct [] = .ok State.reset ∧ State.reset.Inv

/-- R106: at every step boundary of every run pc is at most 0xFFF, so its upper four bits are zero, and the increment
of a fetch that succeeds does not wrap; 0xFFE and 0xFFF are reached, and there the next fetch fails. -/
def Obligations.PcStaysWithinTwelveBits : Prop :=
  (∀ s : State, Reachable s → s.pc.toNat ≤ 0xFFF ∧ s.pc.extractLsb' 12 4 = 0#4 ∧
    (s.pc.toNat ≤ 0xFFD → (s.pc + 2#16).toNat = s.pc.toNat + 2)) ∧
  (∃ s, Reachable s ∧ s.pc.toNat = 0xFFE ∧ step s = .fault (.addressOutOfRange .fetch 0xFFE)) ∧
  (∃ s, Reachable s ∧ s.pc.toNat = 0xFFF ∧ step s = .fault (.addressOutOfRange .fetch 0xFFF))

/-! ## Construction, runs and the host -/

/-- R700, R701, R702, R605: construction accepts exactly the ROMs of at most 0xDFF bytes and fixes every piece of
state, memory at every address that names a byte; a larger ROM is refused and gives none. -/
def Obligations.ConstructionFixesEveryPieceOfState : Prop :=
  (∀ rom : List Byte, rom.length ≤ 0xDFF →
    ∃ s, construct rom = .ok s ∧
      (∀ a ≤ 0xFFE, s.mem.read a = if 0x200 ≤ a then rom.getD (a - 0x200) 0#8 else 0#8) ∧
      (∀ r, s.reg r = 0#8) ∧ s.pc = 0x0200#16 ∧ s.i = 0#16 ∧ ∀ x y, s.disp.pixel x y = false) ∧
  (∀ rom : List Byte, 0xDFF < rom.length → construct rom = .error (.addressOutOfRange .romLoad 0xFFF))

/-- R710: a JP to its own address is a fixed point of every number of STEPs, all of them OK. -/
def Obligations.SelfJumpIsAFixedPoint : Prop :=
  ∀ (s : State) (w : Word), s.fetchWord = .ok w → w &&& 0xF000#16 = 0x1000#16 → w.toNat % 4096 = s.pc.toNat →
    step s = .next s ∧ ∀ k, afterSteps k s = s ∧ statuses k s = List.replicate k (some .ok)

/-- R709, R610: a run is fault-free exactly when the run that stops at the first fault does not stop, and then both end
in the same state. -/
def Obligations.FaultFreeRunsAreTheRunsThatDoNotStop : Prop :=
  ∀ (k : Nat) (s : State), FaultFree k s ↔ Host.Core.run Sys2Proof.core k s = .next (afterSteps k s)

/-- R114: a request to read a pixel of the 64 by 32 display is answered with it, any other is refused, and the
inspection interface shows the five entities as they are. -/
def Obligations.DisplayReadAnswersThePixel : Prop :=
  (∀ (s : State) (x : Col) (y : Row), displayRead s x.val y.val = .next (s.disp.pixel x y)) ∧
  (∀ (s : State) (col row : Nat), 64 ≤ col ∨ 32 ≤ row →
    displayRead s col row = .refused (.displayRequestOutOfRange col row)) ∧
  (∀ s : State, inspect s = (s.mem, s.v, s.pc, s.i, s.disp))

/-! ## The model's own forms -/

/-- Two memories in canonical form that read alike at every address are the same data (the model's form of R110's
array). -/
def Obligations.CanonicalMemoriesThatReadAlikeAreEqual : Prop :=
  ∀ m m' : Memory, m.wf → m'.wf → (∀ a, m.read a = m'.read a) → m = m'

/-- The model's choice (log entry 8), no rule of the spec: above 0xFFE, where there is no byte (R200), the model's read
answers zero in every state whose memory is in canonical form, and so in every reachable state. No STEP reads there. -/
def Obligations.NoByteAboveMemoryIsEverListed : Prop :=
  (∀ (m : Memory) (a : Nat), m.wf → 0xFFE < a → m.read a = unlistedByte) ∧
  (∀ (s : State) (a : Nat), Reachable s → 0xFFE < a → s.mem.read a = unlistedByte)

/-- A word placed for the next fetch is what that fetch reads; only its two bytes of memory change (log entry 3). -/
def Obligations.PlacedWordIsTheOneFetched : Prop :=
  ∀ (s : State) (w : Nat), s.mem.wf → s.pc.toNat ≤ 0xFFD → w < 65536 →
    (s.withFetchWord 16 w).fetchWord = .ok (BitVec.ofNat 16 w) ∧ (s.withFetchWord 16 w).mem.wf ∧
    (∀ r, (s.withFetchWord 16 w).reg r = s.reg r) ∧ (s.withFetchWord 16 w).pc = s.pc ∧
    (s.withFetchWord 16 w).i = s.i ∧ (s.withFetchWord 16 w).disp = s.disp ∧
    ∀ a, a ≠ s.pc.toNat → a ≠ s.pc.toNat + 1 → (s.withFetchWord 16 w).mem.read a = s.mem.read a
end

