-- ==== Sys2Proof/Laws/Decode.lean ====
section
/-! SUPPORT. What the decoder can answer, and the fields of a word put together from fields. -/

namespace Sys2Proof

/-- Everything `decodeWord` can answer: one row's instruction with its fields, or the rejection of the whole word. -/
theorem decodeWord_cases (w : Word) :
    (w = 0x00E0#16 ∧ decodeWord w = .ok .cls) ∨
    (opField w = 0x1#4 ∧ decodeWord w = .ok (.jp (nnnField w))) ∨
    (opField w = 0x6#4 ∧ decodeWord w = .ok (.ld (xField w) (nnField w))) ∨
    (opField w = 0x7#4 ∧ decodeWord w = .ok (.add (xField w) (nnField w))) ∨
    (opField w = 0xA#4 ∧ decodeWord w = .ok (.ldI (nnnField w))) ∨
    (opField w = 0xD#4 ∧ decodeWord w = .ok (.drw (xField w) (yField w) (nField w))) ∨
    (w ≠ 0x00E0#16 ∧ opField w ∉ [0x1#4, 0x6#4, 0x7#4, 0xA#4, 0xD#4] ∧
      decodeWord w = .error (.unimplemented w)) := by
  unfold decodeWord
  split_ifs with h0 h1 h6 h7 hA hD <;> simp_all

/-- The only rejection of a word carries that word. -/
theorem decodeWord_error {w : Word} {e : DecodeError} (h : decodeWord w = .error e) : e = .unimplemented w := by
  rcases decodeWord_cases w with ⟨_, hd⟩ | ⟨_, hd⟩ | ⟨_, hd⟩ | ⟨_, hd⟩ | ⟨_, hd⟩ | ⟨_, hd⟩ | ⟨_, _, hd⟩ <;>
    rw [hd] at h <;> cases h
  rfl

/-- A word is its two bytes. -/
theorem wordOfBytes_highByte_lowByte (w : Word) : wordOfBytes (highByte w) (lowByte w) = w := by
  apply BitVec.eq_of_getLsbD_eq
  intro k hk
  simp only [wordOfBytes, highByte, lowByte, BitVec.getLsbD_append, BitVec.getLsbD_extractLsb']
  split_ifs with h
  · simp [h]
  · simp [show k - 8 < 8 by omega, show 8 + (k - 8) = k by omega]

/-- The high nibble of a word made of a nibble and twelve bits. -/
theorem opField_append (op : BitVec 4) (rest : BitVec 12) : opField (op ++ rest) = op := by
  apply BitVec.eq_of_getLsbD_eq
  intro k hk
  simp only [opField, BitVec.getLsbD_append, BitVec.getLsbD_extractLsb']
  simp [hk, show ¬(12 + k < 12) by omega]

/-- Decoding the bytes of a word is decoding the word. -/
theorem decode_word_bytes (w : Word) (rest : List Byte) :
    decode (highByte w :: lowByte w :: rest) =
      match decodeWord w with
      | .ok i => .ok (i, rest)
      | .error e => .error e := by
  cases h : decodeWord w <;> simp [decode, wordOfBytes_highByte_lowByte, h]

end Sys2Proof
end

