-- ==== Sys2Proof/Laws/State.lean ====
section
/-! SUPPORT. One lemma per field per update of State, the laws of register and display access. -/

namespace Sys2Proof.Machine

section
variable (s : State)

@[simp] theorem State.setReg_mem (r : RegIdx) (b : Byte) : (s.setReg r b).mem = s.mem := rfl
@[simp] theorem State.setReg_pc (r : RegIdx) (b : Byte) : (s.setReg r b).pc = s.pc := rfl
@[simp] theorem State.setReg_i (r : RegIdx) (b : Byte) : (s.setReg r b).i = s.i := rfl
@[simp] theorem State.setReg_disp (r : RegIdx) (b : Byte) : (s.setReg r b).disp = s.disp := rfl
@[simp] theorem State.setReg_v (r : RegIdx) (b : Byte) : (s.setReg r b).v = s.v.set r.val b := rfl

@[simp] theorem State.setPc_mem (t : Word) : (s.setPc t).mem = s.mem := rfl
@[simp] theorem State.setPc_v (t : Word) : (s.setPc t).v = s.v := rfl
@[simp] theorem State.setPc_pc (t : Word) : (s.setPc t).pc = t := rfl
@[simp] theorem State.setPc_i (t : Word) : (s.setPc t).i = s.i := rfl
@[simp] theorem State.setPc_disp (t : Word) : (s.setPc t).disp = s.disp := rfl

@[simp] theorem State.advancePc_mem : s.advancePc.mem = s.mem := rfl
@[simp] theorem State.advancePc_v : s.advancePc.v = s.v := rfl
@[simp] theorem State.advancePc_pc : s.advancePc.pc = s.pc + 2#16 := rfl
@[simp] theorem State.advancePc_i : s.advancePc.i = s.i := rfl
@[simp] theorem State.advancePc_disp : s.advancePc.disp = s.disp := rfl

@[simp] theorem State.setI_mem (w : Word) : (s.setI w).mem = s.mem := rfl
@[simp] theorem State.setI_v (w : Word) : (s.setI w).v = s.v := rfl
@[simp] theorem State.setI_pc (w : Word) : (s.setI w).pc = s.pc := rfl
@[simp] theorem State.setI_i (w : Word) : (s.setI w).i = w := rfl
@[simp] theorem State.setI_disp (w : Word) : (s.setI w).disp = s.disp := rfl

@[simp] theorem State.setDisp_mem (d : Display) : (s.setDisp d).mem = s.mem := rfl
@[simp] theorem State.setDisp_v (d : Display) : (s.setDisp d).v = s.v := rfl
@[simp] theorem State.setDisp_pc (d : Display) : (s.setDisp d).pc = s.pc := rfl
@[simp] theorem State.setDisp_i (d : Display) : (s.setDisp d).i = s.i := rfl
@[simp] theorem State.setDisp_disp (d : Display) : (s.setDisp d).disp = d := rfl

@[simp] theorem State.setFlag_mem (c : Bool) : (s.setFlag c).mem = s.mem := rfl
@[simp] theorem State.setFlag_pc (c : Bool) : (s.setFlag c).pc = s.pc := rfl
@[simp] theorem State.setFlag_i (c : Bool) : (s.setFlag c).i = s.i := rfl
@[simp] theorem State.setFlag_disp (c : Bool) : (s.setFlag c).disp = s.disp := rfl

/-! ## Registers -/

@[simp] theorem State.reg_setReg_same (r : RegIdx) (b : Byte) : (s.setReg r b).reg r = b := by
  simp [State.reg]

@[simp] theorem State.reg_setReg_ne {r q : RegIdx} (b : Byte) (h : q ≠ r) : (s.setReg r b).reg q = s.reg q := by
  have : r.val ≠ q.val := fun e => h (Fin.ext e.symm)
  simp [State.reg, this]

@[simp] theorem State.reg_setPc (t : Word) (r : RegIdx) : (s.setPc t).reg r = s.reg r := rfl
@[simp] theorem State.reg_advancePc (r : RegIdx) : s.advancePc.reg r = s.reg r := rfl
@[simp] theorem State.reg_setI (w : Word) (r : RegIdx) : (s.setI w).reg r = s.reg r := rfl
@[simp] theorem State.reg_setDisp (d : Display) (r : RegIdx) : (s.setDisp d).reg r = s.reg r := rfl

@[simp] theorem State.reg_setFlag_flag (c : Bool) : (s.setFlag c).reg flagReg = collisionFlag c := by
  simp [State.setFlag]

@[simp] theorem State.reg_setFlag_ne (c : Bool) {q : RegIdx} (h : q ≠ flagReg) :
    (s.setFlag c).reg q = s.reg q := by
  simp [State.setFlag, h]

end

/-! ## Display -/

@[simp] theorem Display.pixel_cleared (x : Col) (y : Row) : Display.pixel clearedDisplay x y = false := by
  simp [Display.pixel, clearedDisplay]

/-- A pixel after a pixel write: the written one holds the new value, every other is as it was. -/
theorem Display.pixel_setPixel (d : Display) (x x' : Col) (y y' : Row) (b : Bool) :
    (d.setPixel x y b).pixel x' y' = if x' = x ∧ y' = y then b else d.pixel x' y' := by
  unfold Display.pixel Display.setPixel
  by_cases hx : x = x'
  · subst hx
    by_cases hy : y = y'
    · subst hy
      simp
    · have hv : y.val ≠ y'.val := fun e => hy (Fin.ext e)
      simp [hv, Ne.symm hy]
  · have hv : x.val ≠ x'.val := fun e => hx (Fin.ext e)
    simp [hv, Ne.symm hx]

/-- A display is its pixels. -/
theorem Display.ext_pixel {d e : Display} (h : ∀ x y, d.pixel x y = e.pixel x y) : d = e := by
  apply Vector.ext
  intro x hx
  apply Vector.ext
  intro y hy
  exact h ⟨x, hx⟩ ⟨y, hy⟩

end Sys2Proof.Machine
end

