-- ==== Sys2Proof/Laws/Draw.lean ====
section
/-! SUPPORT. What DRW's loops do, said without the loops: one law for each of drawPixel, drawBits, drawRows,
firstRowOutOfRange. Later proofs cite these and unfold no loop. -/

namespace Sys2Proof.Machine

/-! ## One pixel -/

theorem drawPixel_pixel (x px : Col) (y py : Row) (bit : Bool) (c : Canvas) :
    (drawPixel x y bit c).disp.pixel px py = (c.disp.pixel px py ^^ (decide (px = x ∧ py = y) && bit)) := by
  unfold drawPixel
  by_cases h : px = x ∧ py = y
  · obtain ⟨rfl, rfl⟩ := h
    cases bit <;> cases hp : c.disp.pixel px py <;> simp [Display.pixel_setPixel, hp]
  · cases bit <;> cases c.disp.pixel x y <;> simp [Display.pixel_setPixel, h]

theorem drawPixel_collision (x : Col) (y : Row) (bit : Bool) (c : Canvas) :
    (drawPixel x y bit c).collision = (c.collision || (bit && c.disp.pixel x y)) := by
  unfold drawPixel
  cases bit <;> cases hp : c.disp.pixel x y <;> simp

/-! ## One row of the sprite -/

/-- After the positions b .. b + left - 1 of a row, exactly the pixels under a 1 bit there are toggled. -/
theorem drawBits_pixel (x0 : Nat) (y : Row) (row : Byte) (left b : Nat) (c : Canvas) (px : Col) (py : Row) :
    (drawBits x0 y row left b c).disp.pixel px py =
      (c.disp.pixel px py ^^
        (decide (py = y ∧ x0 + b ≤ px.val ∧ px.val < x0 + b + left) && spriteBit row (px.val - x0))) := by
  induction left generalizing b c with
  | zero => simp [drawBits, show ¬(x0 + b ≤ px.val ∧ px.val < x0 + b) by omega]
  | succ left ih =>
    rw [drawBits, ih]
    by_cases hat : px.val = x0 + b
    · have hb : x0 + b < 64 := hat ▸ px.isLt
      have hpx : px = ⟨x0 + b, hb⟩ := Fin.ext hat
      have hsub : px.val - x0 = b := by omega
      rw [dif_pos hb, drawPixel_pixel, ← hpx, hsub]
      simp [hat]
    · have hrange : (x0 + (b + 1) ≤ px.val ∧ px.val < x0 + (b + 1) + left) ↔
          (x0 + b ≤ px.val ∧ px.val < x0 + b + (left + 1)) := by omega
      simp only [hrange]
      split_ifs with hb
      · have hpx : px ≠ ⟨x0 + b, hb⟩ := fun e => hat (by simp [e])
        simp [drawPixel_pixel, hpx]
      · rfl

/-- After those positions there has been a collision if there had been one, or if a 1 bit there met an on pixel. -/
theorem drawBits_collision (x0 : Nat) (y : Row) (row : Byte) (left b : Nat) (c : Canvas) :
    (drawBits x0 y row left b c).collision = true ↔
      c.collision = true ∨ ∃ px : Col, x0 + b ≤ px.val ∧ px.val < x0 + b + left ∧
        spriteBit row (px.val - x0) = true ∧ c.disp.pixel px y = true := by
  induction left generalizing b c with
  | zero =>
    simp only [drawBits, Nat.add_zero]
    exact ⟨.inl, fun h => h.elim id fun ⟨_, h1, h2, _⟩ => absurd h1 (by omega)⟩
  | succ left ih =>
    rw [drawBits, ih]
    by_cases hb : x0 + b < 64
    · rw [dif_pos hb, drawPixel_collision]
      have hother : ∀ px : Col, x0 + (b + 1) ≤ px.val →
          (drawPixel ⟨x0 + b, hb⟩ y (spriteBit row b) c).disp.pixel px y = c.disp.pixel px y := by
        intro px hpx
        have : px ≠ ⟨x0 + b, hb⟩ := fun e => by simp [e] at hpx
        simp [drawPixel_pixel, this]
      constructor
      · rintro (h | ⟨px, h1, h2, h3, h4⟩)
        · simp only [Bool.or_eq_true, Bool.and_eq_true] at h
          refine h.imp id fun ⟨hbit, hon⟩ => ⟨⟨x0 + b, hb⟩, by simp, by simp, ?_, hon⟩
          simpa using hbit
        · exact .inr ⟨px, by omega, by omega, h3, hother px h1 ▸ h4⟩
      · rintro (h | ⟨px, h1, h2, h3, h4⟩)
        · exact .inl (by simp [h])
        · by_cases hat : px.val = x0 + b
          · have hpx : px = ⟨x0 + b, hb⟩ := Fin.ext hat
            subst hpx
            have hbit : spriteBit row b = true := by simpa using h3
            exact .inl (by simp [hbit, h4])
          · have h1' : x0 + (b + 1) ≤ px.val := by omega
            exact .inr ⟨px, h1', by omega, h3, (hother px h1').symm ▸ h4⟩
    · rw [dif_neg hb]
      refine or_congr Iff.rfl (exists_congr fun px => ?_)
      have := px.isLt
      constructor
      · rintro ⟨h1, h2, h⟩; omega
      · rintro ⟨h1, h2, h⟩; omega

/-! ## All rows -/

/-- After the rows r .. r + left - 1 (those on the screen), exactly the pixels under a 1 bit of theirs are toggled. -/
theorem drawRows_pixel (m : Memory) (base x0 y0 left r : Nat) (c : Canvas) (px : Col) (py : Row) :
    (drawRows m base x0 y0 left r c).disp.pixel px py =
      (c.disp.pixel px py ^^
        (decide (x0 ≤ px.val ∧ px.val < x0 + 8 ∧ y0 + r ≤ py.val ∧ py.val < y0 + r + left) &&
          spriteBit (m.read (base + (py.val - y0))) (px.val - x0))) := by
  induction left generalizing r c with
  | zero => simp [drawRows, show ¬(y0 + r ≤ py.val ∧ py.val < y0 + r) by omega]
  | succ left ih =>
    rw [drawRows]
    split_ifs with hr
    · rw [ih, drawBits_pixel]
      simp only [Config.spriteWidth, Nat.add_zero, spriteRowAddr]
      by_cases hat : py.val = y0 + r
      · have hpy : py = ⟨y0 + r, hr⟩ := Fin.ext hat
        have hsub : py.val - y0 = r := by omega
        rw [← hpy, hsub]
        simp [hat]
      · have hpy : py ≠ ⟨y0 + r, hr⟩ := fun e => hat (by simp [e])
        have hrange : (y0 + (r + 1) ≤ py.val ∧ py.val < y0 + (r + 1) + left) ↔
            (y0 + r ≤ py.val ∧ py.val < y0 + r + (left + 1)) := by omega
        simp [hpy, hrange]
    · have := py.isLt
      simp [show ¬(y0 + r ≤ py.val ∧ py.val < y0 + r + (left + 1)) by omega]

/-- After those rows there has been a collision if there had been one, or if a 1 bit of theirs met an on pixel. -/
theorem drawRows_collision (m : Memory) (base x0 y0 left r : Nat) (c : Canvas) :
    (drawRows m base x0 y0 left r c).collision = true ↔
      c.collision = true ∨ ∃ (px : Col) (py : Row), x0 ≤ px.val ∧ px.val < x0 + 8 ∧
        y0 + r ≤ py.val ∧ py.val < y0 + r + left ∧
        spriteBit (m.read (base + (py.val - y0))) (px.val - x0) = true ∧ c.disp.pixel px py = true := by
  induction left generalizing r c with
  | zero =>
    simp only [drawRows, Nat.add_zero]
    exact ⟨.inl, fun h => h.elim id fun ⟨_, _, _, _, h1, h2, _⟩ => absurd h1 (by omega)⟩
  | succ left ih =>
    rw [drawRows]
    split_ifs with hr
    · rw [ih, drawBits_collision]
      simp only [Config.spriteWidth, Nat.add_zero, spriteRowAddr]
      have hother : ∀ (px : Col) (py : Row), y0 + (r + 1) ≤ py.val →
          (drawBits x0 ⟨y0 + r, hr⟩ (m.read (base + r)) 8 0 c).disp.pixel px py = c.disp.pixel px py := by
        intro px py hpy
        have : py ≠ ⟨y0 + r, hr⟩ := fun e => by simp [e] at hpy
        simp [drawBits_pixel, this]
      constructor
      · rintro ((h | ⟨px, h1, h2, h3, h4⟩) | ⟨px, py, h1, h2, h3, h4, h5, h6⟩)
        · exact .inl h
        · exact .inr ⟨px, ⟨y0 + r, hr⟩, h1, h2, by simp, by simp, by simpa using h3, h4⟩
        · exact .inr ⟨px, py, h1, h2, by omega, by omega, h5, hother px py h3 ▸ h6⟩
      · rintro (h | ⟨px, py, h1, h2, h3, h4, h5, h6⟩)
        · exact .inl (.inl h)
        · by_cases hat : py.val = y0 + r
          · have hpy : py = ⟨y0 + r, hr⟩ := Fin.ext hat
            subst hpy
            exact .inl (.inr ⟨px, h1, h2, by simpa using h5, h6⟩)
          · have h3' : y0 + (r + 1) ≤ py.val := by omega
            exact .inr ⟨px, py, h1, h2, h3', by omega, h5, (hother px py h3').symm ▸ h6⟩
    · refine ⟨.inl, fun h => h.elim id fun ⟨_, py, _, _, h3, _⟩ => ?_⟩
      have := py.isLt
      omega

/-! ## The bound -/

/-- The check finds nothing exactly when every row it looks at lies in memory. -/
theorem firstRowOutOfRange_none (base y0 left r : Nat) :
    firstRowOutOfRange base y0 left r = none ↔
      ∀ q, r ≤ q → q < r + left → y0 + q < 32 → base + q ≤ 0xFFE := by
  induction left generalizing r with
  | zero => simp [firstRowOutOfRange]; intros; omega
  | succ left ih =>
    rw [firstRowOutOfRange]
    split_ifs with h1 h2 <;> simp only [spriteRowAddr, Config.memLast] at *
    · exact iff_of_true trivial fun q _ _ _ => by omega
    · refine iff_of_false (by simp) fun h => ?_
      have := h r le_rfl (by omega) (by omega)
      omega
    · rw [ih]
      constructor
      · intro h q hq1 hq2 hq3
        by_cases hq : q = r
        · subst hq; omega
        · exact h q (by omega) (by omega) hq3
      · exact fun h q hq1 hq2 hq3 => h q (by omega) (by omega) hq3

/-- The address the check reports is that of the first row it looks at that lies above 0xFFE. -/
theorem firstRowOutOfRange_some (base y0 left r a : Nat) :
    firstRowOutOfRange base y0 left r = some a ↔
      ∃ q, r ≤ q ∧ q < r + left ∧ y0 + q < 32 ∧ a = base + q ∧ 0xFFE < a ∧
        ∀ p, r ≤ p → p < q → base + p ≤ 0xFFE := by
  induction left generalizing r with
  | zero =>
    refine iff_of_false (by simp [firstRowOutOfRange]) ?_
    rintro ⟨q, h1, h2, _⟩
    omega
  | succ left ih =>
    rw [firstRowOutOfRange]
    split_ifs with h1 h2 <;> try simp only [spriteRowAddr, Config.memLast] at *
    · refine iff_of_false (by simp) ?_
      rintro ⟨q, hq1, _, hq3, _⟩
      omega
    · constructor
      · rintro h
        obtain rfl := Option.some.inj h
        exact ⟨r, le_rfl, by omega, by omega, rfl, by omega, fun p hp1 hp2 => by omega⟩
      · rintro ⟨q, hq1, hq2, hq3, rfl, hq5, hq6⟩
        by_cases hq : q = r
        · rw [hq]
        · have := hq6 r le_rfl (by omega)
          omega
    · rw [ih]
      constructor
      · rintro ⟨q, hq1, hq2, hq3, hq4, hq5, hq6⟩
        refine ⟨q, by omega, by omega, hq3, hq4, hq5, fun p hp1 hp2 => ?_⟩
        by_cases hp : p = r
        · subst hp; omega
        · exact hq6 p (by omega) hp2
      · rintro ⟨q, hq1, hq2, hq3, hq4, hq5, hq6⟩
        by_cases hq : q = r
        · subst hq; omega
        · exact ⟨q, by omega, by omega, hq3, hq4, hq5, fun p hp1 hp2 => hq6 p (by omega) hp2⟩

/-- What DRW can answer: the fault of R443 with the state untouched, or the blit of `drawRows` with VF set from it. -/
theorem execDrw_cases (x y : RegIdx) (n : Height) (s : State) :
    (∃ a, firstRowOutOfRange s.i.toNat (anchorY s y) n.val 0 = some a ∧
      execDrw x y n s = .fault (.addressOutOfRange .spriteRead a)) ∨
    (firstRowOutOfRange s.i.toNat (anchorY s y) n.val 0 = none ∧ ∃ c,
      c = drawRows s.mem s.i.toNat (anchorX s x) (anchorY s y) n.val 0 ⟨s.disp, false⟩ ∧
      execDrw x y n s = .next ((s.setDisp c.disp).setFlag c.collision)) := by
  unfold execDrw
  cases h : firstRowOutOfRange s.i.toNat (anchorY s y) n.val 0 with
  | some a => exact .inl ⟨a, rfl, rfl⟩
  | none => exact .inr ⟨rfl, _, rfl, rfl⟩

end Sys2Proof.Machine
end

