-- ==== Sys2Proof/Laws/Memory.lean ====
section
/-! SUPPORT. The laws of memory: read after write, and that every memory operation keeps the canonical form. -/

namespace Sys2Proof.Machine

theorem Memory.wf_nil : Memory.wf [] := by simp [Memory.wf]

/-- The canonical form of a listing, cell by cell. -/
theorem Memory.wf_cons {b : Nat} {u : Byte} {m : Memory} :
    Memory.wf ((b, u) :: m) ↔ (∀ c ∈ m, b < c.1) ∧ b ≤ 0xFFE ∧ u ≠ 0#8 ∧ Memory.wf m := by
  simp only [Memory.wf, List.pairwise_cons, List.mem_cons, forall_eq_or_imp, Config.memLast, unlistedByte]
  tauto

/-- An address below every listed one reads as the unlisted byte. -/
theorem Memory.read_below {m : Memory} {a : Nat} (h : ∀ c ∈ m, a < c.1) : m.read a = unlistedByte := by
  induction m with
  | nil => rfl
  | cons c m ih =>
    obtain ⟨b, u⟩ := c
    have hb : a < b := h (b, u) (by simp)
    simp only [Memory.read, Nat.ne_of_lt hb, if_false]
    exact ih fun c hc => h c (by simp [hc])

/-- A put adds no address but its own. -/
theorem Memory.mem_put {m : Memory} {a : Nat} {v : Byte} {c : Host.Cell} (h : c ∈ m.put a v) :
    c = (a, v) ∨ c ∈ m := by
  induction m with
  | nil =>
    simp only [Memory.put] at h
    split at h <;> simp_all
  | cons d m ih =>
    obtain ⟨b, u⟩ := d
    simp only [Memory.put] at h
    split_ifs at h <;> simp only [List.mem_cons] at h ⊢
    · exact .inr h
    · exact h
    · exact .inr (.inr h)
    · obtain rfl | h := h
      · rename_i hab _; exact .inl (by rw [hab])
      · exact .inr (.inr h)
    · obtain h | h := h
      · exact .inr (.inl h)
      · exact (ih h).imp id .inr

/-- A put keeps the canonical form. -/
theorem Memory.wf_put {m : Memory} {a : Nat} {v : Byte} (hm : m.wf) (ha : a ≤ 0xFFE) : (m.put a v).wf := by
  induction m with
  | nil =>
    simp only [Memory.put]
    split_ifs with hv
    · exact hm
    · exact Memory.wf_cons.2 ⟨by simp, ha, hv, hm⟩
  | cons d m ih =>
    obtain ⟨b, u⟩ := d
    have hd := Memory.wf_cons.1 hm
    obtain ⟨hlt, hb, hu, hwf⟩ := hd
    simp only [Memory.put]
    split_ifs with hab hv he hv
    · exact hm
    · refine Memory.wf_cons.2 ⟨fun c hc => ?_, ha, hv, hm⟩
      rcases List.mem_cons.1 hc with rfl | hc
      · exact hab
      · exact hab.trans (hlt c hc)
    · exact hwf
    · exact Memory.wf_cons.2 ⟨hlt, hb, hv, hwf⟩
    · refine Memory.wf_cons.2 ⟨fun c hc => ?_, hb, hu, ih hwf⟩
      rcases Memory.mem_put hc with rfl | hc
      · show b < a; omega
      · exact hlt c hc

/-- Reading after a put: the byte put, at its address; every other address as before. -/
theorem Memory.read_put {m : Memory} {a : Nat} {v : Byte} (hm : m.wf) (k : Nat) :
    (m.put a v).read k = if k = a then v else m.read k := by
  induction m with
  | nil =>
    simp only [Memory.put]
    split_ifs <;> simp_all [Memory.read]
  | cons d m ih =>
    obtain ⟨b, u⟩ := d
    obtain ⟨hlt, hb, hu, hwf⟩ := Memory.wf_cons.1 hm
    have hbelow : ∀ j, j ≤ b → Memory.read m j = unlistedByte := fun j hj =>
      Memory.read_below fun c hc => lt_of_le_of_lt hj (hlt c hc)
    by_cases hab : a < b
    · by_cases hv : v = unlistedByte
      · by_cases hk : k = a
        · have hkb : k ≠ b := by omega
          simp [Memory.put, hab, hv, Memory.read, hk, hbelow a hab.le, Nat.ne_of_lt hab]
        · simp [Memory.put, hab, hv, Memory.read, hk]
      · simp [Memory.put, hab, hv, Memory.read]
    · by_cases he : a = b
      · subst he
        by_cases hv : v = unlistedByte
        · by_cases hk : k = a <;> simp [Memory.put, hv, Memory.read, hk, hbelow a le_rfl]
        · by_cases hk : k = a <;> simp [Memory.put, hv, Memory.read, hk]
      · by_cases hk : k = b
        · subst hk
          simp [Memory.put, hab, he, Memory.read, Ne.symm he]
        · simp [Memory.put, hab, he, Memory.read, hk, ih hwf]

theorem Memory.wf_write {m : Memory} {a : Nat} {v : Byte} (hm : m.wf) : (m.write a v).wf := by
  unfold Memory.write
  split_ifs with h
  · exact Memory.wf_put hm h
  · exact hm

/-- Reading after a write at an address that names a byte. -/
theorem Memory.read_write {m : Memory} {a : Nat} {v : Byte} (hm : m.wf) (ha : a ≤ 0xFFE) (k : Nat) :
    (m.write a v).read k = if k = a then v else m.read k := by
  simp [Memory.write, ha, Memory.read_put hm]

theorem Memory.wf_writeBytes {m : Memory} {a : Nat} {bytes : List Byte} (hm : m.wf) : (m.writeBytes a bytes).wf := by
  induction bytes generalizing m a with
  | nil => exact hm
  | cons v rest ih => exact ih (Memory.wf_write hm)

/-- Reading after a run of bytes was written: the run's bytes where it lies, every other address as before. -/
theorem Memory.read_writeBytes {m : Memory} {a : Nat} {bytes : List Byte} (hm : m.wf)
    (hfit : a + bytes.length ≤ 0xFFF) (k : Nat) :
    (m.writeBytes a bytes).read k =
      if h : a ≤ k ∧ k < a + bytes.length then bytes[k - a]'(by omega) else m.read k := by
  induction bytes generalizing m a with
  | nil => simp [Memory.writeBytes, show ¬(a ≤ k ∧ k < a) by omega]
  | cons v rest ih =>
    simp only [List.length_cons] at hfit
    rw [Memory.writeBytes, ih (Memory.wf_write hm) (by omega), Memory.read_write hm (by omega)]
    simp only [List.length_cons]
    by_cases hk : k = a
    · subst hk
      simp
    · by_cases hin : a + 1 ≤ k ∧ k < a + 1 + rest.length
      · have hin' : a ≤ k ∧ k < a + (rest.length + 1) := by omega
        have hidx : k - a = (k - (a + 1)) + 1 := by omega
        simp [hin, hin', hidx]
      · have hin' : ¬(a ≤ k ∧ k < a + (rest.length + 1)) := by omega
        rw [dif_neg hin, dif_neg hin', if_neg hk]

/-- A construction either is refused for its length, or gives the reset values with the ROM's bytes written from 0x200. -/
theorem construct_cases (rom : List Byte) :
    (0xDFF < rom.length ∧ construct rom = .error (.addressOutOfRange .romLoad 0xFFF)) ∨
    (rom.length ≤ 0xDFF ∧ construct rom = .ok { State.reset with mem := Memory.writeBytes [] 0x200 rom }) := by
  unfold construct
  by_cases h : Config.loadBase + rom.length > 0xFFF
  · exact .inl ⟨by simp at h; omega, by rw [if_pos h]⟩
  · exact .inr ⟨by simp at h; omega, by rw [if_neg h]; rfl⟩

/-- A placed word keeps memory in its canonical form. -/
theorem State.wf_placeWord {s : State} {w : Word} (hm : s.mem.wf) : (s.placeWord w).mem.wf := by
  unfold State.placeWord
  split_ifs
  · exact Memory.wf_write (Memory.wf_write hm)
  · exact hm

end Sys2Proof.Machine
end

