-- ==== Sys2Proof/Laws/PerInstr.lean ====
section
/-! SUPPORT. Statements made per instruction: family EncodedRow. -/

namespace Sys2Proof.Laws.EncodedRow

/-- The instruction is well formed, and its word selects the row of R308 that bears its mnemonic. -/
def Statement (i : Instr) : Prop :=
  i.wellFormed = true ∧ ∃ r ∈ opcodeTable, r.mnemonic = mnemonicOf i ∧ rowSelects r (encode i) = true

/-- A nibble before twelve bits is what the mask 0xF000 leaves. -/
theorem mask_append (op : BitVec 4) (rest : BitVec 12) : (op ++ rest : Word) &&& 0xF000#16 = op ++ 0#12 := by
  apply BitVec.eq_of_getLsbD_eq
  intro k hk
  simp only [BitVec.getLsbD_and, BitVec.getLsbD_append]
  interval_cases k <;> simp

theorem cls : Statement .cls := by
  refine ⟨rfl, ?_⟩
  decide

theorem jp (nnn : Addr12) : Statement (.jp nnn) := by
  have := nnn.isLt
  refine ⟨by simp [Instr.wellFormed]; omega, ⟨"JP", 0x1000#16, 0xF000#16⟩, by simp [opcodeTable], rfl, ?_⟩
  simp [rowSelects, encode, mask_append]

theorem ld (x : RegIdx) (nn : Byte) : Statement (.ld x nn) := by
  have hx := x.isLt
  have hn := nn.isLt
  refine ⟨by simp [Instr.wellFormed]; omega, ⟨"LD", 0x6000#16, 0xF000#16⟩, by simp [opcodeTable], rfl, ?_⟩
  simp [rowSelects, encode, mask_append]

theorem add (x : RegIdx) (nn : Byte) : Statement (.add x nn) := by
  have hx := x.isLt
  have hn := nn.isLt
  refine ⟨by simp [Instr.wellFormed]; omega, ⟨"ADD", 0x7000#16, 0xF000#16⟩, by simp [opcodeTable], rfl, ?_⟩
  simp [rowSelects, encode, mask_append]

theorem ldI (nnn : Addr12) : Statement (.ldI nnn) := by
  have := nnn.isLt
  refine ⟨by simp [Instr.wellFormed]; omega, ⟨"LD_I", 0xA000#16, 0xF000#16⟩, by simp [opcodeTable], rfl, ?_⟩
  simp [rowSelects, encode, mask_append]

theorem drw (x y : RegIdx) (n : Height) : Statement (.drw x y n) := by
  have hx := x.isLt
  have hy := y.isLt
  have hn := n.isLt
  refine ⟨by simp [Instr.wellFormed]; omega, ⟨"DRW", 0xD000#16, 0xF000#16⟩, by simp [opcodeTable], rfl, ?_⟩
  simp [rowSelects, encode, mask_append]

end Sys2Proof.Laws.EncodedRow
end

