-- ==== Sys2Proof/Laws/Step.lean ====
section
/-! SUPPORT. What a fetch, a dispatch and a STEP can do, said once. -/

namespace Sys2Proof.Machine

/-- The two answers of a fetch. -/
theorem fetchWord_cases (s : State) :
    (s.pc.toNat ≤ 0xFFD ∧ s.fetchWord = .ok (wordOfBytes (s.mem.read s.pc.toNat) (s.mem.read (s.pc.toNat + 1)))) ∨
    (0xFFD < s.pc.toNat ∧ s.fetchWord = .error (.addressOutOfRange .fetch s.pc.toNat)) := by
  unfold State.fetchWord
  split_ifs with h
  · exact .inl ⟨h, rfl⟩
  · exact .inr ⟨by simpa using h, rfl⟩

/-- The advance adds 2 with no wrap where a fetch succeeded. -/
theorem advance_toNat {s : State} (h : s.pc.toNat ≤ 0xFFD) : (s.pc + 2#16).toNat = s.pc.toNat + 2 := by
  rw [BitVec.toNat_add, BitVec.toNat_ofNat]
  omega

@[simp] theorem zext16_toNat (nnn : Addr12) : (zext16 nnn).toNat = nnn.toNat := by
  have := nnn.isLt
  simp [zext16, BitVec.toNat_setWidth, Nat.mod_eq_of_lt (show nnn.toNat < 65536 by omega)]

/-- Everything an instruction can answer: the next state of its own effect, or DRW's fault of R443. -/
theorem exec_cases (i : Instr) (s : State) :
    (i = .cls ∧ exec i s = .next (s.setDisp clearedDisplay)) ∨
    (∃ nnn, i = .jp nnn ∧ exec i s = .next (s.setPc (zext16 nnn))) ∨
    (∃ x nn, i = .ld x nn ∧ exec i s = .next (s.setReg x nn)) ∨
    (∃ x nn b, i = .add x nn ∧ exec i s = .next (s.setReg x b)) ∨
    (∃ nnn, i = .ldI nnn ∧ exec i s = .next (s.setI (zext16 nnn))) ∨
    (∃ x y n, i = .drw x y n ∧
      ((∃ d c, exec i s = .next ((s.setDisp d).setFlag c)) ∨
        ∃ a, exec i s = .fault (.addressOutOfRange .spriteRead a))) := by
  cases i with
  | cls => exact .inl ⟨rfl, rfl⟩
  | jp nnn => exact .inr (.inl ⟨nnn, rfl, rfl⟩)
  | ld x nn => exact .inr (.inr (.inl ⟨x, nn, rfl, rfl⟩))
  | add x nn => exact .inr (.inr (.inr (.inl ⟨x, nn, _, rfl, rfl⟩)))
  | ldI nnn => exact .inr (.inr (.inr (.inr (.inl ⟨nnn, rfl, rfl⟩))))
  | drw x y n =>
    refine .inr (.inr (.inr (.inr (.inr ⟨x, y, n, rfl, ?_⟩))))
    obtain ⟨a, _, h⟩ | ⟨_, c, _, h⟩ := execDrw_cases x y n s
    · exact .inr ⟨a, h⟩
    · exact .inl ⟨c.disp, c.collision, h⟩

/-- Everything a STEP can do, with the state it leaves: the fetch fails and nothing changes; the word is
unimplemented and only pc has advanced; the decoded instruction answers a next state; or its fault leaves only the
advance. -/
theorem step_cases (s : State) :
    (0xFFD < s.pc.toNat ∧ step s = .fault (.addressOutOfRange .fetch s.pc.toNat) ∧ stateAfter s = s) ∨
    (∃ w, s.pc.toNat ≤ 0xFFD ∧ s.fetchWord = .ok w ∧
      ((decodeWord w = .error (.unimplemented w) ∧ step s = .fault (.unimplemented w) ∧
          stateAfter s = s.advancePc) ∨
        ∃ i, decodeWord w = .ok i ∧ step s = exec i s.advancePc ∧
          ((∃ t, exec i s.advancePc = .next t ∧ stateAfter s = t) ∨
            ∃ a, exec i s.advancePc = .fault (.addressOutOfRange .spriteRead a) ∧ stateAfter s = s.advancePc))) := by
  obtain ⟨hpc, hf⟩ | ⟨hpc, hf⟩ := fetchWord_cases s
  · refine .inr ⟨_, hpc, hf, ?_⟩
    set w := wordOfBytes (s.mem.read s.pc.toNat) (s.mem.read (s.pc.toNat + 1)) with hw
    cases hd : decodeWord w with
    | error e =>
      have he := decodeWord_error hd
      subst he
      exact .inl ⟨rfl, by simp [step, fetchAndDispatch, hf, dispatchWord, hd, raise],
        by simp [stateAfter, hf, dispatchWord, hd, raise]⟩
    | ok i =>
      have hstep : step s = exec i s.advancePc := by simp [step, fetchAndDispatch, hf, dispatchWord, hd]
      refine .inr ⟨i, rfl, hstep, ?_⟩
      have hnext : ∀ t, exec i s.advancePc = .next t → stateAfter s = t := fun t ht => by
        simp [stateAfter, hf, dispatchWord, hd, ht]
      rcases exec_cases i s.advancePc with ⟨_, h⟩ | ⟨_, _, h⟩ | ⟨_, _, _, h⟩ | ⟨_, _, _, _, h⟩ | ⟨_, _, h⟩ |
        ⟨_, _, _, _, ⟨_, _, h⟩ | ⟨a, h⟩⟩
      · exact .inl ⟨_, h, hnext _ h⟩
      · exact .inl ⟨_, h, hnext _ h⟩
      · exact .inl ⟨_, h, hnext _ h⟩
      · exact .inl ⟨_, h, hnext _ h⟩
      · exact .inl ⟨_, h, hnext _ h⟩
      · exact .inl ⟨_, h, hnext _ h⟩
      · exact .inr ⟨a, h, by simp [stateAfter, hf, dispatchWord, hd, h]⟩
  · exact .inl ⟨hpc, by simp [step, fetchAndDispatch, hf, raise], by simp [stateAfter, hf]⟩

/-- Everything a STEP can leave, from `step_cases` and `exec_cases`: the state itself after a failed fetch, else the
state with pc advanced, changed by the one effect of the decoded instruction or not at all. -/
theorem stateAfter_cases (s : State) :
    (0xFFD < s.pc.toNat ∧ stateAfter s = s) ∨
    ∃ w, s.pc.toNat ≤ 0xFFD ∧ s.fetchWord = .ok w ∧
      ((decodeWord w = .error (.unimplemented w) ∧ stateAfter s = s.advancePc) ∨
        (decodeWord w = .ok .cls ∧ stateAfter s = s.advancePc.setDisp clearedDisplay) ∨
        (∃ nnn, decodeWord w = .ok (.jp nnn) ∧ stateAfter s = s.advancePc.setPc (zext16 nnn)) ∨
        (∃ x nn b, (decodeWord w = .ok (.ld x nn) ∨ decodeWord w = .ok (.add x nn)) ∧
          stateAfter s = s.advancePc.setReg x b) ∨
        (∃ nnn, decodeWord w = .ok (.ldI nnn) ∧ stateAfter s = s.advancePc.setI (zext16 nnn)) ∨
        (∃ x y n, decodeWord w = .ok (.drw x y n) ∧
          (stateAfter s = s.advancePc ∨ ∃ d c, stateAfter s = (s.advancePc.setDisp d).setFlag c))) := by
  obtain ⟨h, _, h'⟩ | ⟨w, hpc, hf, ⟨hd, _, h⟩ | ⟨i, hd, _, h⟩⟩ := step_cases s
  · exact .inl ⟨h, h'⟩
  · exact .inr ⟨w, hpc, hf, .inl ⟨hd, h⟩⟩
  · refine .inr ⟨w, hpc, hf, .inr ?_⟩
    rcases exec_cases i s.advancePc with ⟨rfl, he⟩ | ⟨nnn, rfl, he⟩ | ⟨x, nn, rfl, he⟩ | ⟨x, nn, b, rfl, he⟩ |
      ⟨nnn, rfl, he⟩ | ⟨x, y, n, rfl, ⟨d, c, he⟩ | ⟨a, he⟩⟩ <;>
      (obtain ⟨t, ht, hs⟩ | ⟨a, ht, hs⟩ := h) <;> rw [he] at ht <;> cases ht <;> rw [hs]
    · exact .inl ⟨hd, rfl⟩
    · exact .inr (.inl ⟨_, hd, rfl⟩)
    · exact .inr (.inr (.inl ⟨_, _, _, .inl hd, rfl⟩))
    · exact .inr (.inr (.inl ⟨_, _, _, .inr hd, rfl⟩))
    · exact .inr (.inr (.inr (.inl ⟨_, hd, rfl⟩)))
    · exact .inr (.inr (.inr (.inr ⟨_, _, _, hd, .inr ⟨d, c, rfl⟩⟩)))
    · exact .inr (.inr (.inr (.inr ⟨_, _, _, hd, .inl rfl⟩)))

/-- A run of the host's that stops at a fault, one step unfolded where the step completes. -/
theorem run_of_next (M : Host.Core) (k : Nat) {s t : M.State} (h : M.step s = .next t) :
    M.run (k + 1) s = M.run k t := by
  simp only [Host.Core.run, h]

/-- The same where the step faults. -/
theorem run_of_fault (M : Host.Core) (k : Nat) {s : M.State} {f : M.Fault} (h : M.step s = .fault f) :
    M.run (k + 1) s = .fault f := by
  simp only [Host.Core.run, h]

/-- A placed word is stored big-endian where the fetch reads. -/
theorem placeWord_bytes {s : State} (w : Word) (hm : s.mem.wf) (hpc : s.pc.toNat ≤ 0xFFD) (a : Nat) :
    (s.placeWord w).mem.read a =
      if a = s.pc.toNat then highByte w else if a = s.pc.toNat + 1 then lowByte w else s.mem.read a := by
  simp only [State.placeWord, Config.fetchLast, if_pos hpc]
  rw [Memory.read_write (Memory.wf_write hm) (by omega), Memory.read_write hm (by omega)]
  split_ifs <;> first | rfl | omega

end Sys2Proof.Machine
end

