-- ==== Sys2Proof/Tests/Slice0.lean ====
section
/-! SUPPORT. The model's own tests, and for each statement with hypotheses a state and operands that meet them.
Expected results come from spec/95_test_vectors.md (the vector is named) or from the rule named, worked out by hand. -/

namespace Sys2Proof.Tests
open Sys2Proof Sys2Proof.Machine

/-! ## Helpers -/

/-- A state that differs from reset in pc, some runs of bytes, some registers, I and the pixels that are on. -/
def machine (pc : Word) (bytes : List (Nat × List Byte)) (regs : List (RegIdx × Byte)) (i : Word)
    (on : List (Col × Row)) : State :=
  { mem := bytes.foldl (fun m p => m.writeBytes p.1 p.2) []
    v := regs.foldl (fun v p => v.set p.1.val p.2) (Vector.replicate 16 0#8)
    pc := pc
    i := i
    disp := on.foldl (fun d p => d.setPixel p.1 p.2 true) clearedDisplay }

/-- The STEP completes and its next state passes the check. -/
def completes (s : State) (good : State → Bool) : Bool :=
  match step s with
  | .next t => good t
  | .fault _ => false
  | .refused _ => false

/-- The STEP ends in this fault. -/
def faults (s : State) (f : Fault) : Bool :=
  match step s with
  | .next _ => false
  | .fault g => g == f
  | .refused _ => false

/-! ## Parameters, well-formedness, reset -/

theorem test_parameters_agree : Config.memLast + 1 = Config.memSize ∧ Config.fetchLast + 1 = Config.memLast ∧
    Config.loadBase + Config.romMax = Config.memSize := by decide

/-- No ill-formed instruction can be written: the operand types carry R301-R305's ranges. -/
theorem test_every_instruction_is_well_formed (x y : RegIdx) (n : Height) : (Instr.drw x y n).wellFormed = true := by
  revert x y n; decide

theorem test_rom_one_byte_too_long_is_ill_formed : romWellFormed (List.replicate 0xE00 0#8) = false := by
  rw [romWellFormed, List.length_replicate]; decide

theorem test_rom_of_full_length_is_well_formed : romWellFormed (List.replicate 0xDFF 0#8) = true := by
  rw [romWellFormed, List.length_replicate]; decide

theorem test_column_64_is_an_ill_formed_request : displayRequestWellFormed 64 0 = false := by decide

theorem test_row_32_is_an_ill_formed_request : displayRequestWellFormed 0 32 = false := by decide

/-- RST-01: the empty ROM is accepted; the first STEP returns UNIMPLEMENTED(0x0000) and leaves pc = 0x202. -/
theorem test_reset_is_the_empty_rom :
    construct [] = .ok State.reset ∧ faults State.reset (.unimplemented 0#16) = true ∧
      (stateAfter State.reset).pc = 0x202#16 := ⟨rfl, by decide, by decide⟩

/-- RST-02: ROM 00 E0. -/
theorem test_construct_two_bytes :
    (construct [0x00#8, 0xE0#8]).toOption.map (fun s => (s.mem.read 0x200, s.mem.read 0x201, s.pc)) =
      some (0x00#8, 0xE0#8, 0x200#16) := by decide

/-! ## Decoding: words written out bit by bit from R308's encodings -/

theorem test_decode_cls : decodeWord 0b0000000011100000#16 = .ok .cls := by decide
theorem test_decode_jp : decodeWord 0b0001101010111100#16 = .ok (.jp 0xABC#12) := by decide
theorem test_decode_ld : decodeWord 0b0110111100000001#16 = .ok (.ld 0xF 0x01#8) := by decide
theorem test_decode_add : decodeWord 0b0111001100000001#16 = .ok (.add 0x3 0x01#8) := by decide
theorem test_decode_ldI : decodeWord 0b1010000100100011#16 = .ok (.ldI 0x123#12) := by decide
theorem test_decode_drw : decodeWord 0b1101000100101111#16 = .ok (.drw 0x1 0x2 0xF) := by decide

/-- DEC-08, DEC-09: every other high nibble is unimplemented. -/
theorem test_decode_other_nibbles : [0x2200#16, 0x3000#16, 0x4000#16, 0x5000#16, 0x8000#16, 0x9000#16, 0xB000#16,
    0xC000#16, 0xE000#16, 0xF000#16, 0x00EE#16, 0x0000#16, 0x0E00#16].all
      (fun w => decide (decodeWord w = .error (.unimplemented w))) = true := by decide

theorem test_decode_one_byte : decode [0x00#8] = .error (.truncated 1) := by decide

theorem test_table_word : decodeTableWord 16 0xD12F = some (.drw 0x1 0x2 0xF) := by decide

theorem test_codes : Status.code .ok = 0 ∧ Status.code (.failed (.unimplemented 0#16)) = 1 ∧
    Status.code (.failed (.addressOutOfRange .fetch 0)) = 2 ∧
    [AccessKind.fetch, .spriteRead, .romLoad].map AccessKind.code = [0, 1, 2] := by decide

/-! ## One STEP of each instruction -/

/-- CLS-01. -/
theorem test_cls : completes (machine 0x200#16 [(0x200, [0x00, 0xE0])] [(0xF, 0x01)] 0#16 [(0, 0), (63, 31), (10, 5)])
    (fun t => !t.disp.pixel 0 0 && !t.disp.pixel 63 31 && !t.disp.pixel 10 5 && t.reg 0xF == 0x01 && t.pc == 0x202) =
    true := by decide

/-- JP-01. -/
theorem test_jp : completes (machine 0x200#16 [(0x200, [0x1A, 0xBC])] [] 0#16 []) (fun t => t.pc == 0xABC) = true := by
  decide

/-- LD-01. -/
theorem test_ld : completes (machine 0x200#16 [(0x200, [0x6A, 0x42])] [(0xA, 0x99), (0xB, 0x77)] 0#16 [])
    (fun t => t.reg 0xA == 0x42 && t.reg 0xB == 0x77 && t.pc == 0x202) = true := by decide

/-- ADD-01: no carry reaches VF. -/
theorem test_add_wraps : completes (machine 0x200#16 [(0x200, [0x73, 0x01])] [(0x3, 0xFF), (0xF, 0x07)] 0#16 [])
    (fun t => t.reg 0x3 == 0x00 && t.reg 0xF == 0x07) = true := by decide

/-- ADD-03: VF as destination. -/
theorem test_add_to_vf : completes (machine 0x200#16 [(0x200, [0x7F, 0xFF])] [(0xF, 0x05)] 0#16 [])
    (fun t => t.reg 0xF == 0x04) = true := by decide

/-- LDI-02. -/
theorem test_ldI : completes (machine 0x200#16 [(0x200, [0xAF, 0xFF])] [] 0x456#16 [])
    (fun t => t.i == 0x0FFF && t.pc == 0x202) = true := by decide

/-- DRW-12: a 1 bit on an on pixel is a collision, a 0 bit over an on pixel is none. -/
theorem test_drw_collision :
    completes (machine 0x200#16 [(0x200, [0xD0, 0x11]), (0x300, [0x40])] [] 0x300#16 [(0, 0), (1, 0)])
      (fun t => t.disp.pixel 0 0 && !t.disp.pixel 1 0 && t.reg 0xF == 1) = true := by decide

/-- DRW-14: clipped at the right and at the bottom, wrapping nowhere. -/
theorem test_drw_clips :
    completes (machine 0x200#16 [(0x200, [0xD0, 0x13]), (0x300, [0xFF, 0xFF, 0xFF])] [(0, 0x3E), (1, 0x1F)] 0x300#16 [])
      (fun t => t.disp.pixel 62 31 && t.disp.pixel 63 31 && !t.disp.pixel 61 31 && !t.disp.pixel 0 31 &&
        !t.disp.pixel 62 0 && t.reg 0xF == 0) = true := by decide

/-! ## Fetch and faults -/

/-- FE-06: an odd pc, and a word that straddles 0x200. -/
theorem test_fetch_odd : completes (machine 0x1FF#16 [(0x200, [0xE0])] [] 0#16 [(0, 0)])
    (fun t => !t.disp.pixel 0 0 && t.pc == 0x201) = true := by decide

/-- FE-04. -/
theorem test_fetch_fault : faults (machine 0xFFE#16 [] [] 0#16 []) (.addressOutOfRange .fetch 0xFFE) = true := by decide

/-- UN-01. -/
theorem test_unimplemented :
    let s := machine 0x200#16 [(0x200, [0x00, 0xEE])] [(0, 0x01)] 0#16 []
    faults s (.unimplemented 0x00EE#16) = true ∧ (stateAfter s).pc = 0x202#16 ∧ (stateAfter s).reg 0 = 0x01#8 := by decide

/-- DRW-15: the second row lies above 0xFFE; nothing but pc changes. -/
theorem test_sprite_fault :
    let s := machine 0x200#16 [(0x200, [0xD0, 0x12])] [(0xF, 0x07)] 0xFFE#16 [(9, 9)]
    faults s (.addressOutOfRange .spriteRead 0xFFF) = true ∧ (stateAfter s).pc = 0x202#16 ∧
      (stateAfter s).reg 0xF = 0x07#8 ∧ (stateAfter s).disp.pixel 9 9 = true := by decide

/-- DRW-16: the row that would lie above 0xFFE is clipped, so it is not read. -/
theorem test_clipped_row_is_not_read :
    completes (machine 0x200#16 [(0x200, [0xD0, 0x12]), (0xFFE, [0x80])] [(1, 0x1F)] 0xFFE#16 [])
      (fun t => t.disp.pixel 0 31 && t.reg 0xF == 0) = true := by decide

theorem test_display_read : displayRead (machine 0#16 [] [] 0#16 [(63, 31)]) 63 31 = .next true := rfl

/-! ## Witnesses: for every statement with hypotheses, a case that meets them together -/

/-- Each row has a word, and some word has no row. -/
theorem witness_DecodingFollowsTheOpcodeTable :
    (0x00E0#16 &&& 0xFFFF#16 = 0x00E0#16) ∧ (0x1FFF#16 &&& 0xF000#16 = 0x1000#16) ∧
    (0x6F00#16 &&& 0xF000#16 = 0x6000#16) ∧ (0x7FFF#16 &&& 0xF000#16 = 0x7000#16) ∧
    (0xA000#16 &&& 0xF000#16 = 0xA000#16) ∧ (0xDFFF#16 &&& 0xF000#16 = 0xD000#16) ∧
    ∀ r ∈ opcodeTable, rowSelects r 0x00E1#16 = false := by decide

theorem witness_UnimplementedSpaceIsAsCounted : decodeWord 0x2200#16 = .error (.unimplemented 0x2200#16) := by decide

theorem witness_EncodeOfDecodeIsTheWord : decodeWord 0xDFFF#16 = .ok (.drw 0xF 0xF 0xF) := by decide

/-- At the last address a fetch can read, LD V0, 01 (FE-03). -/
def atTheEnd : State := machine 0xFFD#16 [(0xFFD, [0x60, 0x01])] [] 0#16 []

theorem witness_StepRunsTheDecodedInstruction : atTheEnd.pc.toNat ≤ 0xFFD ∧
    decodeWord (wordOfBytes (atTheEnd.mem.read atTheEnd.pc.toNat) (atTheEnd.mem.read (atTheEnd.pc.toNat + 1))) =
      .ok (.ld 0 0x01#8) := by decide

theorem witness_FetchIsBigEndianAtAnyAlignment :
    atTheEnd.pc.toNat ≤ 0xFFD ∧ atTheEnd.fetchWord = .ok 0x6001#16 ∧ 0x6001#16 &&& 0xF000#16 ≠ 0x1000#16 := by decide

/-- JP FFE, constructed and stepped: reachable, and its next fetch fails. -/
def jumpedToFFE : State := stateAfter { State.reset with mem := Memory.writeBytes [] 0x200 [0x1F#8, 0xFE#8] }

theorem jumpedToFFE_reachable : Reachable jumpedToFFE := .stepped (.constructed (rom := [0x1F#8, 0xFE#8]) rfl)

theorem witness_FetchBeyondMemoryFailsForEver : Reachable jumpedToFFE ∧ 0xFFD < jumpedToFFE.pc.toNat :=
  ⟨jumpedToFFE_reachable, by decide⟩

theorem witness_EverySuccessfulFetchAdvancesPcByTwo :
    atTheEnd.fetchWord = .ok 0x6001#16 ∧ 0x6001#16 &&& 0xF000#16 ≠ 0x1000#16 ∧
    jumpedToFFE.fetchWord = .error (.addressOutOfRange .fetch 0xFFE) := by decide

/-- An unimplemented word at pc (UN-02). -/
def atUnimplemented : State := machine 0x300#16 [(0x300, [0xF0, 0x0A])] [] 0#16 []

theorem witness_UnimplementedWordFaultsAndChangesOnlyPc :
    atUnimplemented.fetchWord = .ok 0xF00A#16 ∧ ∀ r ∈ opcodeTable, rowSelects r 0xF00A#16 = false := by decide

/-- DRW V0, V0, 1 with I = 0xFFF (DRW-17). -/
def atSpriteFault : State := machine 0x204#16 [(0x204, [0xD0, 0x01])] [] 0xFFF#16 []

theorem witness_StepFaultsExactlyInTheThreeCases :
    construct (List.replicate 0xE00 0#8) = .error (.addressOutOfRange .romLoad 0xFFF) ∧
    faults jumpedToFFE (.addressOutOfRange .fetch 0xFFE) = true ∧
    faults atUnimplemented (.unimplemented 0xF00A#16) = true ∧
    faults atSpriteFault (.addressOutOfRange .spriteRead 0xFFF) = true :=
  ⟨by rw [construct, List.length_replicate]; rfl, by decide, by decide, by decide⟩

theorem witness_FaultLeavesNothingButThePcAdvance :
    step jumpedToFFE = .fault (.addressOutOfRange .fetch 0xFFE) ∧
    step atUnimplemented = .fault (.unimplemented 0xF00A#16) ∧
    step atSpriteFault = .fault (.addressOutOfRange .spriteRead 0xFFF) := ⟨rfl, rfl, rfl⟩

/-- A JP to its own address (JP-03). -/
def atSelfJump : State := machine 0x200#16 [(0x200, [0x12, 0x00])] [] 0#16 []

theorem witness_JpSetsPcToItsTarget :
    atSelfJump.fetchWord = .ok 0x1200#16 ∧ 0x1200#16 &&& 0xF000#16 = 0x1000#16 := by decide

theorem witness_SelfJumpIsAFixedPoint :
    atSelfJump.fetchWord = .ok 0x1200#16 ∧ 0x1200#16 &&& 0xF000#16 = 0x1000#16 ∧
    (0x1200#16).toNat % 4096 = atSelfJump.pc.toNat := by decide

theorem witness_LdSetsItsRegister : 0x6FFF#16 &&& 0xF000#16 = 0x6000#16 := by decide

theorem witness_AddWrapsModulo256AndWritesNoFlag : 0x7FFF#16 &&& 0xF000#16 = 0x7000#16 := by decide

theorem witness_LdISetsTheAddressRegister : 0xAFFF#16 &&& 0xF000#16 = 0xA000#16 := by decide

/-- DRW V0, V1, 1 with its one row at the last address of memory and (0, 0) on. -/
def atLastRow : State := machine 0x200#16 [(0x200, [0xD0, 0x11]), (0xFFE, [0x80])] [] 0xFFE#16 [(0, 0)]

theorem witness_DrwXorsTheClippedSpriteOntoTheDisplay : rowsFit atLastRow 1 1 := by decide

theorem witness_DrwReportsTheCollisionInVF :
    rowsFit atLastRow 1 1 ∧
    (∃ px py, spriteCovers atLastRow 0 1 1 px py = true ∧ atLastRow.disp.pixel px py = true) ∧
    rowsFit State.reset 1 1 ∧
    ¬∃ px py, spriteCovers State.reset 0 1 1 px py = true ∧ State.reset.disp.pixel px py = true :=
  ⟨by decide, ⟨0, 0, by decide, by decide⟩, by decide, fun ⟨_, _, _, h⟩ => by
    rw [show State.reset.disp = clearedDisplay from rfl, Display.pixel_cleared] at h; cases h⟩

theorem witness_DrwLeavesEverythingButDisplayAndVF : ∃ t, exec (.drw 0 1 1) atLastRow = .next t := ⟨_, rfl⟩

theorem witness_DrwChecksEveryRowBeforeWriting :
    (∃ r, r < min ((1 : Height).val) (32 - (atSpriteFault.reg 0).toNat % 32) ∧ 0xFFE < atSpriteFault.i.toNat + r) ∧
    atSpriteFault.fetchWord = .ok 0xD001#16 ∧ decodeWord 0xD001#16 = .ok (.drw 0 0 1) ∧
    faults atSpriteFault (.addressOutOfRange .spriteRead 0xFFF) = true :=
  ⟨⟨0, by decide, by decide⟩, by decide, by decide, by decide⟩

/-- VF = 0x40 and V3 = 0x20 give the anchor (0, 0) that V0 = V1 = 0 give. -/
theorem witness_DrwDependsOnlyOnItsAnchor :
    let v' : Vector Byte 16 := ((Vector.replicate 16 0#8).set 15 0x40#8).set 3 0x20#8
    v'[(0xF : RegIdx).val].toNat % 64 = (atLastRow.reg 0).toNat % 64 ∧
    v'[(3 : RegIdx).val].toNat % 32 = (atLastRow.reg 1).toNat % 32 ∧
    ∃ t, exec (.drw 0 1 1) atLastRow = .next t := ⟨by decide, by decide, _, rfl⟩

/-- A memory without the program's bytes reads alike where the sprite lies. -/
theorem witness_DrwReadsOnlyTheRowsItDraws :
    ∀ r < (1 : Height).val, (atLastRow.reg 1).toNat % 32 + r < 32 →
      Memory.read [(0xFFE, 0x80#8)] (atLastRow.i.toNat + r) = atLastRow.mem.read (atLastRow.i.toNat + r) := by decide

theorem witness_DrawingTwiceRestoresTheDisplay :
    (0 : RegIdx) ≠ 0xF ∧ (1 : RegIdx) ≠ 0xF ∧ (∃ t, exec (.drw 0 1 1) atLastRow = .next t) ∧
    (∃ t, exec (.drw 0 1 1) State.reset = .next t) ∧
    ∀ px py, spriteCovers State.reset 0 1 1 px py = true → State.reset.disp.pixel px py = false :=
  ⟨by decide, by decide, ⟨_, rfl⟩, ⟨_, rfl⟩, fun _ _ _ => Display.pixel_cleared _ _⟩

/-- LD writes V0, ADD writes V0, DRW writes VF. -/
theorem witness_OnlyLdAddAndDrwWriteRegisters :
    (stateAfter atTheEnd).reg 0 ≠ atTheEnd.reg 0 ∧
    (stateAfter (machine 0xFFC#16 [(0xFFC, [0x70, 0x01])] [] 0#16 [])).reg 0 ≠
      (machine 0xFFC#16 [(0xFFC, [0x70, 0x01])] [] 0#16 []).reg 0 ∧
    (stateAfter atLastRow).reg 0xF ≠ atLastRow.reg 0xF := by decide

theorem witness_OnlyClsAndDrwWriteTheDisplay :
    (stateAfter atLastRow).disp.pixel 0 0 ≠ atLastRow.disp.pixel 0 0 ∧
    (stateAfter (machine 0x200#16 [(0x200, [0x00, 0xE0])] [] 0#16 [(63, 31)])).disp.pixel 63 31 ≠
      (machine 0x200#16 [(0x200, [0x00, 0xE0])] [] 0#16 [(63, 31)]).disp.pixel 63 31 := by decide

theorem witness_OnlyFetchJpAndConstructionWritePc : construct [] = .ok State.reset := rfl

/-- A construction from a ROM that is not empty, and the addresses at the clause's ends. -/
theorem witness_MemoryKeepsItsConstructionContents :
    construct [0x1F#8, 0xFE#8] = .ok { State.reset with mem := Memory.writeBytes [] 0x200 [0x1F#8, 0xFE#8] } ∧
    0x1FF ≤ 0xFFE ∧ 0x200 ≤ 0xFFE ∧ 0xFFE ≤ 0xFFE := ⟨rfl, by decide⟩

theorem witness_ConstructionAndResetMeetTheInvariant :
    construct [0x00#8, 0xE0#8] = .ok { State.reset with mem := Memory.writeBytes [] 0x200 [0x00#8, 0xE0#8] } := rfl

theorem witness_OnlyLdIWritesTheAddressRegister :
    (stateAfter (machine 0x200#16 [(0x200, [0xA1, 0x23])] [] 0#16 [])).i ≠ 0#16 ∧ construct [] = .ok State.reset ∧
    Reachable jumpedToFFE := ⟨by decide, rfl, jumpedToFFE_reachable⟩

theorem witness_EveryStepKeepsTheInvariant : atSelfJump.Inv ∧ ∃ t, step atSelfJump = .next t := ⟨by decide, _, rfl⟩

theorem witness_PcStaysWithinTwelveBits : Reachable State.reset ∧ State.reset.pc.toNat ≤ 0xFFD :=
  ⟨.constructed (rom := []) rfl, by decide⟩

/-- The longest ROM that fits and the shortest that does not. -/
theorem witness_ConstructionFixesEveryPieceOfState :
    (List.replicate 0xDFF 0xFF#8).length ≤ 0xDFF ∧ 0xDFF < (List.replicate 0xE00 0xFF#8).length := by
  rw [List.length_replicate, List.length_replicate]; decide

theorem witness_DisplayReadAnswersThePixel : (64 ≤ 64 ∨ 32 ≤ 0) ∧ (64 ≤ 63 ∨ 32 ≤ 32) := by decide

theorem witness_CanonicalMemoriesThatReadAlikeAreEqual :
    Memory.wf [(0, 1#8), (0xFFE, 2#8)] ∧ Memory.wf ((Memory.write [(0xFFE, 2#8)] 0 1#8)) := by decide

theorem witness_NoByteAboveMemoryIsEverListed :
    Memory.wf [(0xFFE, 2#8)] ∧ Reachable jumpedToFFE ∧ 0xFFE < 0xFFF := ⟨by decide, jumpedToFFE_reachable, by decide⟩

theorem witness_PlacedWordIsTheOneFetched :
    State.reset.mem.wf ∧ State.reset.pc.toNat ≤ 0xFFD ∧ 0xFFFF < 65536 := by decide

end Sys2Proof.Tests
end

