-- ==== Sys2Proof/Proofs/Fields.lean ====
section
/-! SUPPORT. The fields of a word as arithmetic, the JP row of the decoder, and the mask form of the high nibble. -/

namespace Sys2Proof

@[simp] theorem opField_toNat (w : Word) : (opField w).toNat = w.toNat / 4096 := by
  have := w.isLt
  rw [opField, BitVec.extractLsb'_toNat, Nat.shiftRight_eq_div_pow]
  omega

@[simp] theorem nnnField_toNat (w : Word) : (nnnField w).toNat = w.toNat % 4096 := by
  simp [nnnField]

/-- A word is its high nibble and its low twelve bits. -/
theorem opField_append_nnnField (w : Word) : (opField w ++ nnnField w : Word) = w := by
  apply BitVec.eq_of_toNat_eq
  rw [BitVec.toNat_append, ← Nat.shiftLeft_add_eq_or_of_lt (nnnField w).isLt, Nat.shiftLeft_eq,
    opField_toNat, nnnField_toNat]
  omega

/-- The low twelve bits of a word made of a nibble and twelve bits. -/
theorem nnnField_append (op : BitVec 4) (rest : BitVec 12) : nnnField (op ++ rest) = rest :=
  BitVec.extractLsb'_append_eq_right

/-- A mask-and-match row of R308 with mask 0xF000 selects by the high nibble. -/
theorem mask_eq_append_iff (w : Word) (op : BitVec 4) : w &&& 0xF000#16 = op ++ 0#12 ↔ opField w = op := by
  conv_lhs => rw [← opField_append_nnnField w, Laws.EncodedRow.mask_append]
  constructor
  · intro h
    rw [← opField_append (opField w) 0#12, h, opField_append]
  · rintro rfl
    rfl

/-- The JP row of R308. -/
theorem mask_eq_jp_iff (w : Word) : w &&& 0xF000#16 = 0x1000#16 ↔ opField w = 0x1#4 := mask_eq_append_iff w 0x1#4

theorem decodeWord_eq_jp_iff (w : Word) (nnn : Addr12) :
    decodeWord w = .ok (.jp nnn) ↔ opField w = 0x1#4 ∧ nnn = nnnField w := by
  rcases decodeWord_cases w with ⟨rfl, hd⟩ | ⟨ho, hd⟩ | ⟨ho, hd⟩ | ⟨ho, hd⟩ | ⟨ho, hd⟩ | ⟨ho, hd⟩ | ⟨_, ho, hd⟩
  case inr.inl => simp [hd, ho, eq_comm]
  case inl => exact iff_of_false (by simp [hd]) (by simp [show opField 0x00E0#16 = 0x0#4 by decide])
  all_goals exact iff_of_false (by simp [hd]) fun h => by simp [h.1] at ho

end Sys2Proof
end

