-- ==== Sys2Proof/Proofs/StepFrame.lean ====
section
/-! SUPPORT. What construction gives and what a STEP does to memory, status and pc, each said once. -/

namespace Sys2Proof.Machine

/-! ## Construction -/

/-- A construction that gives a state: the ROM fits, and the state is the reset state with the ROM in memory. -/
theorem construct_ok {rom : List Byte} {s : State} (h : construct rom = .ok s) :
    rom.length ≤ 0xDFF ∧ s = { State.reset with mem := Memory.writeBytes [] 0x200 rom } := by
  obtain ⟨_, hc⟩ | ⟨hlen, hc⟩ := construct_cases rom
  · rw [hc] at h; cases h
  · rw [hc] at h; cases h; exact ⟨hlen, rfl⟩

theorem construct_pc {rom : List Byte} {s : State} (h : construct rom = .ok s) : s.pc = 0x200#16 := by
  obtain ⟨_, rfl⟩ := construct_ok h
  rfl

/-- The construction image, byte by byte: the ROM from 0x200 on, zero elsewhere (R110, R700). -/
theorem construct_mem_read {rom : List Byte} {s : State} (h : construct rom = .ok s) (a : Nat) :
    s.mem.read a = if 0x200 ≤ a then rom.getD (a - 0x200) 0#8 else 0#8 := by
  obtain ⟨hlen, rfl⟩ := construct_ok h
  rw [Memory.read_writeBytes Memory.wf_nil (by omega)]
  by_cases hin : 0x200 ≤ a ∧ a < 0x200 + rom.length
  · have hidx : a - 0x200 < rom.length := by omega
    simp [hin, hidx]
  · rw [dif_neg hin]
    split_ifs with hlow
    · have hend : rom.length ≤ a - 0x200 := by omega
      simp [Memory.read, hend]
    · rfl

/-! ## Memory -/

/-- No STEP writes memory (R110), whatever its status. -/
@[simp] theorem stateAfter_mem (s : State) : (stateAfter s).mem = s.mem := by
  rcases stateAfter_cases s with ⟨_, h⟩ | ⟨w, _, _, ⟨_, h⟩ | ⟨_, h⟩ | ⟨_, _, h⟩ | ⟨_, _, _, _, h⟩ | ⟨_, _, h⟩ |
    ⟨_, _, _, _, h | ⟨_, _, h⟩⟩⟩ <;> simp [h]

@[simp] theorem afterSteps_mem (k : Nat) (s : State) : (afterSteps k s).mem = s.mem := by
  induction k generalizing s with
  | zero => rfl
  | succ k ih => rw [afterSteps, ih, stateAfter_mem]

/-! ## Status -/

theorem stepStatus_of_next {s t : State} (h : step s = .next t) : stepStatus s = some .ok := by
  rw [step] at h
  simp [stepStatus, h]

theorem stepStatus_of_fault {s : State} {f : Fault} (h : step s = .fault f) : stepStatus s = some (.failed f) := by
  rw [step] at h
  simp [stepStatus, h]

/-! ## Program counter -/

/-- A fetch above 0xFFD fails (R401). -/
theorem step_of_pc_beyond {s : State} (h : 0xFFD < s.pc.toNat) :
    step s = .fault (.addressOutOfRange .fetch s.pc.toNat) := by
  obtain ⟨_, hstep, _⟩ | ⟨_, hpc, _⟩ := step_cases s
  · exact hstep
  · omega

/-- What a STEP does to pc: nothing when the fetch fails, the target of a JP, else the fetch's advance (R104). -/
theorem stateAfter_pc_cases (s : State) :
    (0xFFD < s.pc.toNat ∧ (stateAfter s).pc = s.pc) ∨
    ∃ w, s.pc.toNat ≤ 0xFFD ∧ s.fetchWord = .ok w ∧
      ((opField w = 0x1#4 ∧ (stateAfter s).pc = zext16 (nnnField w)) ∨
        (opField w ≠ 0x1#4 ∧ (stateAfter s).pc = s.pc + 2#16)) := by
  obtain ⟨hpc, h⟩ | ⟨w, hpc, hf, hcases⟩ := stateAfter_cases s
  · exact .inl ⟨hpc, by rw [h]⟩
  refine .inr ⟨w, hpc, hf, ?_⟩
  by_cases hop : opField w = 0x1#4
  · have hjp : decodeWord w = .ok (.jp (nnnField w)) := (decodeWord_eq_jp_iff w _).2 ⟨hop, rfl⟩
    simp only [hjp] at hcases
    obtain ⟨nnn, hnnn, h⟩ : ∃ nnn, nnnField w = nnn ∧ stateAfter s = s.advancePc.setPc (zext16 nnn) := by
      simpa using hcases
    exact .inl ⟨hop, by rw [h, hnnn, State.setPc_pc]⟩
  · refine .inr ⟨hop, ?_⟩
    rcases hcases with ⟨_, h⟩ | ⟨_, h⟩ | ⟨_, hjp, _⟩ | ⟨_, _, _, _, h⟩ | ⟨_, _, h⟩ | ⟨_, _, _, _, h | ⟨_, _, h⟩⟩
    case inr.inr.inl => exact absurd ((decodeWord_eq_jp_iff w _).1 hjp).1 hop
    all_goals simp [h]

/-- R106's bound holds at every step boundary. -/
theorem Reachable.pc_le {s : State} (h : Reachable s) : s.pc.toNat ≤ 0xFFF := by
  induction h with
  | constructed hc => simp [construct_pc hc]
  | @stepped s _ ih =>
    obtain ⟨_, h⟩ | ⟨w, hpc, _, ⟨_, h⟩ | ⟨_, h⟩⟩ := stateAfter_pc_cases s
    · rwa [h]
    · have := (nnnField w).isLt
      rw [h, zext16_toNat]
      omega
    · rw [h, advance_toNat hpc]
      omega

/-- A ROM that begins with the two bytes of an instruction makes its word the first one fetched. -/
theorem construct_encodeBytes_fetchWord {i : Instr} {rest : List Byte} {s : State}
    (h : construct (encodeBytes i ++ rest) = .ok s) : s.fetchWord = .ok (encode i) := by
  have hpc : s.pc.toNat = 0x200 := by rw [construct_pc h]; rfl
  obtain ⟨_, hf⟩ | ⟨hpc', _⟩ := fetchWord_cases s
  · rw [hf, hpc, construct_mem_read h, construct_mem_read h]
    simp [encodeBytes, wordOfBytes_highByte_lowByte]
  · omega

/-- Every twelve-bit address is the pc of a reachable state: the ROM's first instruction jumps to it, unchecked (R420). -/
theorem exists_reachable_pc (nnn : Addr12) : ∃ s, Reachable s ∧ s.pc.toNat = nnn.toNat := by
  obtain ⟨s, hc⟩ : ∃ s, construct (encodeBytes (.jp nnn) ++ []) = .ok s := by
    obtain ⟨hlen, _⟩ | ⟨_, hc⟩ := construct_cases (encodeBytes (.jp nnn) ++ [])
    · simp [encodeBytes] at hlen
    · exact ⟨_, hc⟩
  refine ⟨stateAfter s, .stepped (.constructed hc), ?_⟩
  have hf := construct_encodeBytes_fetchWord hc
  have hop : opField (encode (.jp nnn)) = 0x1#4 := opField_append _ _
  have hnnn : nnnField (encode (.jp nnn)) = nnn := nnnField_append _ _
  obtain ⟨hpc, _⟩ | ⟨w, _, hw, hcases⟩ := stateAfter_pc_cases s
  · simp [construct_pc hc] at hpc
  obtain rfl : encode (.jp nnn) = w := Except.ok.inj (hf.symm.trans hw)
  obtain ⟨_, h⟩ | ⟨hne, _⟩ := hcases
  · rw [h, zext16_toNat, hnnn]
  · exact absurd hop hne

end Sys2Proof.Machine
end

