-- ==== Sys2Proof/Proofs/StateRules.lean ====
section
/-! The statements about the block's state (10_state.md): memory, statuses, who writes pc, and pc's bound. -/

namespace Sys2Proof.Machine

/-- Settles O32: `afterSteps_mem` is the induction over the run; the construction image is `construct_mem_read`. -/
theorem memoryKeepsItsConstructionContents : Obligations.MemoryKeepsItsConstructionContents := by
  unfold Obligations.MemoryKeepsItsConstructionContents
  refine ⟨fun s k a => by rw [afterSteps_mem], fun rom s k a hc _ => ?_⟩
  rw [afterSteps_mem, construct_mem_read hc]

/-- Settles O14, along the cases of `step_cases` and `construct_cases`. -/
theorem everyTransactionReturnsOneStatus : Obligations.EveryTransactionReturnsOneStatus := by
  unfold Obligations.EveryTransactionReturnsOneStatus
  constructor
  · intro s
    obtain ⟨_, hs, _⟩ | ⟨w, _, _, ⟨_, hs, _⟩ | ⟨i, _, hs, ⟨t, he, ha⟩ | ⟨a, he, _⟩⟩⟩ := step_cases s
    · exact .inr ⟨_, hs, stepStatus_of_fault hs, .inr (.inl ⟨_, rfl⟩)⟩
    · exact .inr ⟨_, hs, stepStatus_of_fault hs, .inl ⟨w, rfl⟩⟩
    · rw [he] at hs
      exact .inl ⟨t, hs, ha, stepStatus_of_next hs⟩
    · rw [he] at hs
      exact .inr ⟨_, hs, stepStatus_of_fault hs, .inr (.inr ⟨a, rfl⟩)⟩
  · intro rom
    obtain ⟨_, hc⟩ | ⟨_, hc⟩ := construct_cases rom
    · exact .inr hc
    · exact .inl ⟨_, hc⟩

/-- Settles O30: `stateAfter_pc_cases`, with the JP row in its mask form. -/
theorem onlyFetchJpAndConstructionWritePc : Obligations.OnlyFetchJpAndConstructionWritePc := by
  unfold Obligations.OnlyFetchJpAndConstructionWritePc
  constructor
  · intro s
    obtain h | ⟨w, hpc, hf, ⟨hop, h⟩ | ⟨hop, h⟩⟩ := stateAfter_pc_cases s
    · exact .inl h
    · exact .inr (.inl ⟨w, hf, (mask_eq_jp_iff w).2 hop, by rw [h, zext16_toNat, nnnField_toNat]⟩)
    · exact .inr (.inr ⟨w, hf, fun hm => hop ((mask_eq_jp_iff w).1 hm), by rw [h, advance_toNat hpc]⟩)
  · intro rom s hc
    rw [construct_pc hc]
    rfl

/-- Settles O35: the bound is `Reachable.pc_le`; 0xFFE and 0xFFF are reached by a JP. -/
theorem pcStaysWithinTwelveBits : Obligations.PcStaysWithinTwelveBits := by
  unfold Obligations.PcStaysWithinTwelveBits
  refine ⟨fun s hs => ⟨hs.pc_le, ?_, advance_toNat⟩, ?_, ?_⟩
  · have hle := hs.pc_le
    show opField s.pc = 0#4
    apply BitVec.eq_of_toNat_eq
    rw [opField_toNat, BitVec.toNat_ofNat]
    omega
  · obtain ⟨s, hs, hpc⟩ := exists_reachable_pc 0xFFE#12
    have hpc : s.pc.toNat = 0xFFE := hpc
    exact ⟨s, hs, hpc, hpc ▸ step_of_pc_beyond (by omega)⟩
  · obtain ⟨s, hs, hpc⟩ := exists_reachable_pc 0xFFF#12
    have hpc : s.pc.toNat = 0xFFF := hpc
    exact ⟨s, hs, hpc, hpc ▸ step_of_pc_beyond (by omega)⟩

end Sys2Proof.Machine
end

