-- ==== Sys2Proof/Proofs/Decoder.lean ====
section
/-! SUPPORT. The remaining fields as arithmetic, one equation per row of the decoder, and the table of R308 read by the
high nibble. -/

namespace Sys2Proof

/-! ## Fields -/

@[simp] theorem xField_val (w : Word) : (xField w).val = w.toNat / 256 % 16 := by
  simp [xField, Nat.shiftRight_eq_div_pow]

@[simp] theorem yField_val (w : Word) : (yField w).val = w.toNat / 16 % 16 := by
  simp [yField, Nat.shiftRight_eq_div_pow]

@[simp] theorem nField_val (w : Word) : (nField w).val = w.toNat % 16 := by
  simp [nField]

@[simp] theorem nnField_toNat (w : Word) : (nnField w).toNat = w.toNat % 256 := by
  simp [nnField]

/-! ## The decoder, row by row -/

/-- The word of CLS has the high nibble 0 (R309). -/
theorem ne_cls_of_opField {w : Word} {op : BitVec 4} (h : opField w = op) (hop : op ≠ 0x0#4) : w ≠ 0x00E0#16 := by
  rintro rfl
  exact hop (h.symm.trans (by decide))

section
variable {w : Word}

theorem decodeWord_of_mask_cls (h : w &&& 0xFFFF#16 = 0x00E0#16) : decodeWord w = .ok .cls := by
  have hw : w = 0x00E0#16 := BitVec.and_allOnes.symm.trans h
  simp [decodeWord, hw]

theorem decodeWord_of_opField_jp (h : opField w = 0x1#4) : decodeWord w = .ok (.jp (nnnField w)) := by
  simp [decodeWord, ne_cls_of_opField h (by decide), h]

theorem decodeWord_of_opField_ld (h : opField w = 0x6#4) : decodeWord w = .ok (.ld (xField w) (nnField w)) := by
  simp [decodeWord, ne_cls_of_opField h (by decide), h]

theorem decodeWord_of_opField_add (h : opField w = 0x7#4) : decodeWord w = .ok (.add (xField w) (nnField w)) := by
  simp [decodeWord, ne_cls_of_opField h (by decide), h]

theorem decodeWord_of_opField_ldI (h : opField w = 0xA#4) : decodeWord w = .ok (.ldI (nnnField w)) := by
  simp [decodeWord, ne_cls_of_opField h (by decide), h]

theorem decodeWord_of_opField_drw (h : opField w = 0xD#4) :
    decodeWord w = .ok (.drw (xField w) (yField w) (nField w)) := by
  simp [decodeWord, ne_cls_of_opField h (by decide), h]

end

/-- The high nibbles that name an instruction of their own: those of the rows of R308 after CLS. -/
abbrev implementedOps : List (BitVec 4) := [0x1#4, 0x6#4, 0x7#4, 0xA#4, 0xD#4]

/-- The words the decoder rejects (R310). -/
theorem decodeWord_eq_unimplemented_iff (w : Word) :
    decodeWord w = .error (.unimplemented w) ↔ w ≠ 0x00E0#16 ∧ opField w ∉ implementedOps := by
  rcases decodeWord_cases w with ⟨rfl, hd⟩ | ⟨ho, hd⟩ | ⟨ho, hd⟩ | ⟨ho, hd⟩ | ⟨ho, hd⟩ | ⟨ho, hd⟩ | ⟨hne, ho, hd⟩
  case inl => simp [hd]
  case inr.inr.inr.inr.inr.inr => exact iff_of_true hd ⟨hne, ho⟩
  all_goals simp [hd, ho]

/-- The words the decoder accepts (R308). -/
theorem decodeWord_isSome_iff (w : Word) :
    (decodeWord w).toOption.isSome = true ↔ w = 0x00E0#16 ∨ opField w ∈ implementedOps := by
  have hsome : (decodeWord w).toOption.isSome = true ↔ ¬decodeWord w = .error (.unimplemented w) := by
    cases h : decodeWord w with
    | ok i => simp [Except.toOption]
    | error e => simp [Except.toOption, decodeWord_error h]
  rw [hsome, decodeWord_eq_unimplemented_iff, not_and_or, not_not, not_not]

/-! ## The opcode table -/

/-- A word that selects a row has that row's high nibble: every mask of R308 keeps the nibble whole. -/
theorem opField_eq_of_rowSelects {r : OpcodeRow} {w : Word} (hr : r ∈ opcodeTable) (h : rowSelects r w = true) :
    opField w = opField r.pattern := by
  have hmask : ∀ r ∈ opcodeTable, opField r.mask = BitVec.allOnes 4 := by decide
  have hsel : w &&& r.mask = r.pattern := by simpa [rowSelects] using h
  calc opField w = opField w &&& opField r.mask := by rw [hmask r hr, BitVec.and_allOnes]
    _ = opField (w &&& r.mask) := BitVec.extractLsb'_and.symm
    _ = opField r.pattern := by rw [hsel]

/-- The rows of R308 are pairwise disjoint: their patterns differ in the high nibble. -/
theorem opcodeTable_disjoint (w : Word) :
    opcodeTable.Pairwise fun r q => ¬(rowSelects r w = true ∧ rowSelects q w = true) := by
  have hops : opcodeTable.Pairwise fun r q => opField r.pattern ≠ opField q.pattern := by decide
  refine hops.imp_of_mem fun hr hq hne ⟨hsr, hsq⟩ => hne ?_
  rw [← opField_eq_of_rowSelects hr hsr, opField_eq_of_rowSelects hq hsq]

/-- A row after CLS is selected by the high nibble alone. -/
theorem rowSelects_iff_opField {r : OpcodeRow} (hr : r ∈ opcodeTable.tail) (w : Word) :
    rowSelects r w = true ↔ opField w = opField r.pattern := by
  have hrow : ∀ r ∈ opcodeTable.tail, r.mask = 0xF000#16 ∧ r.pattern = opField r.pattern ++ 0#12 := by decide
  obtain ⟨hmask, hpattern⟩ := hrow r hr
  rw [← mask_eq_append_iff, ← hpattern, ← hmask, rowSelects, beq_iff_eq]

/-- A word no row selects is rejected as a whole. -/
theorem decodeWord_of_no_row {w : Word} (h : ∀ r ∈ opcodeTable, rowSelects r w = false) :
    decodeWord w = .error (.unimplemented w) := by
  have htail : opcodeTable.tail.map (fun r => opField r.pattern) = implementedOps := by decide
  refine (decodeWord_eq_unimplemented_iff w).2 ⟨?_, fun hop => ?_⟩
  · rintro rfl
    exact absurd h (by decide)
  · rw [← htail, List.mem_map] at hop
    obtain ⟨r, hr, hop⟩ := hop
    have hsel : rowSelects r w = true := (rowSelects_iff_opField hr w).2 hop.symm
    simp [h r (List.mem_of_mem_tail hr)] at hsel

end Sys2Proof
end

