-- ==== Sys2Proof/Proofs/DecoderCounts.lean ====
section
/-! SUPPORT. How many words the decoder accepts, counted one high nibble at a time (R310). -/

namespace Sys2Proof

/-- Counting over `m` blocks of `n` numbers is summing the counts of the blocks. -/
theorem countP_range_mul (p : Nat → Bool) (m n : Nat) :
    (List.range (m * n)).countP p =
      ((List.range m).map fun b => (List.range n).countP fun k => p (b * n + k)).sum := by
  induction m with
  | zero => simp
  | succ m ih =>
    rw [Nat.succ_mul, List.range_add, List.countP_append, List.countP_map, ih, List.range_succ]
    simp [Function.comp_def]

/-- Whether the word numbered `k` is implemented. -/
def implementedNumber (k : Nat) : Bool := (decodeWord (BitVec.ofNat 16 k)).toOption.isSome

/-- R308 in numbers: the word 0x00E0, or a high nibble with a row of its own. -/
theorem implementedNumber_iff {k : Nat} (hk : k < 65536) :
    implementedNumber k = true ↔ k = 0xE0 ∨ k / 4096 ∈ [0x1, 0x6, 0x7, 0xA, 0xD] := by
  have hval : (BitVec.ofNat 16 k).toNat = k := Nat.mod_eq_of_lt hk
  rw [implementedNumber, decodeWord_isSome_iff]
  simp [← BitVec.toNat_inj, hval]

/-- How many words with the high nibble `op` are implemented (R309, R310). -/
def implementedInBlock (op : Nat) : Nat :=
  if op = 0 then 1 else if op ∈ [0x1, 0x6, 0x7, 0xA, 0xD] then 4096 else 0

theorem countP_block {op : Nat} (hop : op < 16) :
    ((List.range 4096).countP fun k => implementedNumber (op * 4096 + k)) = implementedInBlock op := by
  have hblock : ∀ k ∈ List.range 4096, (implementedNumber (op * 4096 + k) = true ↔
      op = 0 ∧ k = 0xE0 ∨ op ∈ [0x1, 0x6, 0x7, 0xA, 0xD]) := by
    intro k hk
    have hk : k < 4096 := List.mem_range.1 hk
    rw [implementedNumber_iff (by omega), show (op * 4096 + k) / 4096 = op by omega,
      show op * 4096 + k = 0xE0 ↔ op = 0 ∧ k = 0xE0 by omega]
  rw [implementedInBlock]
  split_ifs with h0 hrow
  · subst h0
    have hcls : ∀ k ∈ List.range 4096, (implementedNumber (0 * 4096 + k) = true ↔ (k == 0xE0) = true) := by
      intro k hk
      rw [hblock k hk]
      simp
    rw [List.countP_congr hcls, ← List.count_eq_countP]
    exact List.count_eq_one_of_mem List.nodup_range (by simp)
  · rw [List.countP_eq_length.2 fun k hk => (hblock k hk).2 (.inr hrow), List.length_range]
  · exact List.countP_eq_zero.2 fun k hk hsel => ((hblock k hk).1 hsel).elim (fun h => h0 h.1) hrow

/-- The implemented words (R310). -/
theorem countP_implemented : (List.range 65536).countP implementedNumber = 20481 := by
  rw [show 65536 = 16 * 4096 from rfl, countP_range_mul,
    List.map_congr_left fun op hop => countP_block (List.mem_range.1 hop)]
  decide

/-- The implemented words with the high nibble 0 (R309). -/
theorem countP_implemented_opZero : (List.range 4096).countP implementedNumber = 1 := by
  simpa [implementedInBlock] using countP_block (op := 0) (by decide)

/-- What is not implemented is the rest. -/
theorem countP_isNone (n : Nat) :
    ((List.range n).countP fun k => (decodeWord (BitVec.ofNat 16 k)).toOption.isNone) =
      n - (List.range n).countP implementedNumber := by
  have hsplit := List.length_eq_countP_add_countP implementedNumber (l := List.range n)
  have hnone : ∀ k, decide ¬implementedNumber k = true = (decodeWord (BitVec.ofNat 16 k)).toOption.isNone := by
    intro k
    rw [implementedNumber]
    cases (decodeWord (BitVec.ofNat 16 k)).toOption <;> rfl
  simp only [hnone, List.length_range] at hsplit
  omega

end Sys2Proof
end

