-- ==== Sys2Proof/Proofs/EncodingRules.lean ====
section
/-! The statements about the encoding (30_encoding.md): the fields, the opcode table, the unimplemented space. -/

namespace Sys2Proof.Machine

/-- Settles O3: a row's mask form is its high nibble (`mask_eq_append_iff`), and each nibble has its decoder equation. -/
theorem decodingFollowsTheOpcodeTable : Obligations.DecodingFollowsTheOpcodeTable := by
  unfold Obligations.DecodingFollowsTheOpcodeTable
  exact fun w => ⟨decodeWord_of_mask_cls, fun h => decodeWord_of_opField_jp ((mask_eq_append_iff w 0x1#4).1 h),
    fun h => decodeWord_of_opField_ld ((mask_eq_append_iff w 0x6#4).1 h),
    fun h => decodeWord_of_opField_add ((mask_eq_append_iff w 0x7#4).1 h),
    fun h => decodeWord_of_opField_ldI ((mask_eq_append_iff w 0xA#4).1 h),
    fun h => decodeWord_of_opField_drw ((mask_eq_append_iff w 0xD#4).1 h),
    opcodeTable_disjoint w, decodeWord_of_no_row⟩

/-- Dispatching a rejected word raises Unimplemented with the whole word (R310, R406). -/
theorem dispatchWord_of_unimplemented {w : Word} (h : decodeWord w = .error (.unimplemented w)) (s : State) :
    dispatchWord w s = .fault (.unimplemented w) := by
  simp [dispatchWord, h, raise]

/-- Settles O4: `decodeWord_eq_unimplemented_iff` with the sixteen nibbles divided, and the counts by blocks. -/
theorem unimplementedSpaceIsAsCounted : Obligations.UnimplementedSpaceIsAsCounted := by
  unfold Obligations.UnimplementedSpaceIsAsCounted
  refine ⟨fun w => ?_, fun w s h => dispatchWord_of_unimplemented h s, countP_implemented, ?_, ?_⟩
  · have hnibbles : ∀ op : BitVec 4, op ∉ implementedOps ↔ op = 0x0#4 ∨
        op ∈ [0x2#4, 0x3#4, 0x4#4, 0x5#4, 0x8#4, 0x9#4, 0xB#4, 0xC#4, 0xE#4, 0xF#4] := by decide
    rw [decodeWord_eq_unimplemented_iff, hnibbles]
    constructor
    · rintro ⟨hw, ho | ho⟩
      · exact .inl ⟨ho, hw⟩
      · exact .inr ho
    · rintro (⟨ho, hw⟩ | ho)
      · exact ⟨hw, .inl ho⟩
      · exact ⟨ne_cls_of_opField rfl fun h0 => by simp [h0] at ho, .inr ho⟩
  · rw [countP_isNone, countP_implemented]
  · rw [countP_isNone, countP_implemented_opZero]

/-- Settles O1: one arithmetic lemma per extractor. -/
theorem fieldExtractorsReadTheirBits : Obligations.FieldExtractorsReadTheirBits := by
  unfold Obligations.FieldExtractorsReadTheirBits
  exact fun w => ⟨opField_toNat w, xField_val w, yField_val w, nField_val w, nnField_toNat w, nnnField_toNat w⟩

end Sys2Proof.Machine
end

