-- ==== Sys2Proof/Proofs/Fetch.lean ====
section
/-! SUPPORT. What follows from the answer of a fetch, and what a STEP that changes nothing does for ever. -/

namespace Sys2Proof.Machine

/-- A word of two bytes as a number, the lower address the more significant (R204). -/
@[simp] theorem wordOfBytes_toNat (hi lo : Byte) : (wordOfBytes hi lo).toNat = 256 * hi.toNat + lo.toNat := by
  rw [wordOfBytes, BitVec.toNat_append, ← Nat.shiftLeft_add_eq_or_of_lt lo.isLt, Nat.shiftLeft_eq]
  omega

/-! ## A fetch that succeeds -/

theorem fetchWord_of_pc_le {s : State} (h : s.pc.toNat ≤ 0xFFD) :
    s.fetchWord = .ok (wordOfBytes (s.mem.read s.pc.toNat) (s.mem.read (s.pc.toNat + 1))) := by
  obtain ⟨_, hf⟩ | ⟨hpc, _⟩ := fetchWord_cases s
  · exact hf
  · omega

section
variable {s : State} {w : Word}

/-- A fetch gives a word only from two bytes inside memory (R401). -/
theorem pc_le_of_fetchWord (hf : s.fetchWord = .ok w) : s.pc.toNat ≤ 0xFFD := by
  obtain ⟨hpc, _⟩ | ⟨_, he⟩ := fetchWord_cases s
  · exact hpc
  · cases hf.symm.trans he

theorem step_of_fetchWord (hf : s.fetchWord = .ok w) : step s = dispatchWord w s.advancePc := by
  simp only [step, fetchAndDispatch, hf]

/-- Of the words a fetch can give, only a JP moves pc beyond the fetch's advance (R104, R403). -/
theorem stateAfter_pc_of_ne_jp (hf : s.fetchWord = .ok w) (hjp : w &&& 0xF000#16 ≠ 0x1000#16) :
    (stateAfter s).pc = s.pc + 2#16 := by
  have hpc := pc_le_of_fetchWord hf
  obtain ⟨hbeyond, _⟩ | ⟨w', _, hf', hcases⟩ := stateAfter_pc_cases s
  · omega
  obtain rfl : w = w' := Except.ok.inj (hf.symm.trans hf')
  obtain ⟨hop, _⟩ | ⟨_, h⟩ := hcases
  · exact absurd ((mask_eq_jp_iff w).2 hop) hjp
  · exact h

theorem stateAfter_pc_toNat_of_ne_jp (hf : s.fetchWord = .ok w) (hjp : w &&& 0xF000#16 ≠ 0x1000#16) :
    (stateAfter s).pc.toNat = s.pc.toNat + 2 := by
  rw [stateAfter_pc_of_ne_jp hf hjp, advance_toNat (pc_le_of_fetchWord hf)]

/-- After an unimplemented word the block holds the state before with pc advanced (R406). -/
theorem stateAfter_of_unimplemented (hf : s.fetchWord = .ok w) (hd : decodeWord w = .error (.unimplemented w)) :
    stateAfter s = s.advancePc := by
  simp [stateAfter, hf, dispatchWord_of_unimplemented hd]

end

/-! ## A fetch that fails -/

theorem pc_beyond_of_fetchWord_error {s : State} {f : Fault} (hf : s.fetchWord = .error f) : 0xFFD < s.pc.toNat := by
  obtain ⟨_, hok⟩ | ⟨hpc, _⟩ := fetchWord_cases s
  · cases hf.symm.trans hok
  · exact hpc

/-- A failed fetch writes nothing (R401). -/
theorem stateAfter_of_pc_beyond {s : State} (h : 0xFFD < s.pc.toNat) : stateAfter s = s := by
  obtain ⟨_, hs⟩ | ⟨_, hpc, _⟩ := stateAfter_cases s
  · exact hs
  · omega

/-! ## A STEP that leaves its state as it was -/

section
variable {s : State}

theorem afterSteps_of_fixed (h : stateAfter s = s) (k : Nat) : afterSteps k s = s := by
  induction k with
  | zero => rfl
  | succ k ih => rw [afterSteps, h, ih]

/-- Every further STEP returns the first one's status. -/
theorem statuses_of_fixed (h : stateAfter s = s) (k : Nat) : statuses k s = List.replicate k (stepStatus s) := by
  induction k with
  | zero => rfl
  | succ k ih => rw [statuses, h, ih, List.replicate_succ]

end

/-! ## Instructions -/

/-- The only fault of an instruction is DRW's row bound (R443), so none raises UNIMPLEMENTED (R602). -/
theorem exec_ne_unimplemented (i : Instr) (s : State) (w : Word) : exec i s ≠ .fault (.unimplemented w) := by
  rcases exec_cases i s with ⟨_, h⟩ | ⟨_, _, h⟩ | ⟨_, _, _, h⟩ | ⟨_, _, _, _, h⟩ | ⟨_, _, h⟩ |
    ⟨_, _, _, _, ⟨_, _, h⟩ | ⟨_, h⟩⟩ <;> simp [h]

end Sys2Proof.Machine
end

