-- ==== Sys2Proof/Proofs/FetchRules.lean ====
section
/-! The statements about fetch, advance and dispatch (40_fetch_dispatch.md). -/

namespace Sys2Proof.Machine

/-- Settles O8: the two bytes as a number, and an advance by 2 keeps the parity. -/
theorem fetchIsBigEndianAtAnyAlignment : Obligations.FetchIsBigEndianAtAnyAlignment := by
  unfold Obligations.FetchIsBigEndianAtAnyAlignment
  intro s hpc
  have hf := fetchWord_of_pc_le hpc
  refine ⟨_, hf, wordOfBytes_toNat _ _, fun hjp => ?_⟩
  rw [stateAfter_pc_toNat_of_ne_jp hf hjp, Nat.add_mod_right]

/-- Settles O9: the failed fetch leaves a fixed point of the STEP; a reachable pc is at most 0xFFF. -/
theorem fetchBeyondMemoryFailsForEver : Obligations.FetchBeyondMemoryFailsForEver := by
  unfold Obligations.FetchBeyondMemoryFailsForEver
  constructor
  · intro s hpc
    have hstep := step_of_pc_beyond hpc
    have hfixed := stateAfter_of_pc_beyond hpc
    refine ⟨hstep, hfixed, fun k => ⟨afterSteps_of_fixed hfixed k, ?_⟩⟩
    rw [statuses_of_fixed hfixed, stepStatus_of_fault hstep]
  · intro s hs hpc
    have := hs.pc_le
    omega

/-- Settles O10: the fetch's bound keeps the sum from wrapping, and only a JP writes pc again. -/
theorem everySuccessfulFetchAdvancesPcByTwo : Obligations.EverySuccessfulFetchAdvancesPcByTwo := by
  unfold Obligations.EverySuccessfulFetchAdvancesPcByTwo
  constructor
  · intro s w hf
    have hpc := pc_le_of_fetchWord hf
    exact ⟨step_of_fetchWord hf, advance_toNat hpc, by omega, stateAfter_pc_toNat_of_ne_jp hf⟩
  · intro s f hf
    rw [stateAfter_of_pc_beyond (pc_beyond_of_fetchWord_error hf)]

/-- Settles O11: a word of no row is rejected by the decoder, and dispatch raises it over the advanced state. -/
theorem unimplementedWordFaultsAndChangesOnlyPc : Obligations.UnimplementedWordFaultsAndChangesOnlyPc := by
  unfold Obligations.UnimplementedWordFaultsAndChangesOnlyPc
  refine ⟨fun s w hf hrow => ?_, exec_ne_unimplemented⟩
  have hd := decodeWord_of_no_row hrow
  have hafter := stateAfter_of_unimplemented hf hd
  refine ⟨(step_of_fetchWord hf).trans (dispatchWord_of_unimplemented hd _), hafter, ?_⟩
  rw [hafter, State.advancePc_pc, BitVec.add_sub_cancel]

end Sys2Proof.Machine
end

