-- ==== Sys2Proof/Proofs/ClearRules.lean ====
section
/-! The statement about CLS (41_clear.md): its one word, and its effect with the frame. -/

namespace Sys2Proof

/-- The CLS row of R308: one word and no other, since every other row has a nonzero high nibble. -/
theorem decodeWord_eq_cls_iff (w : Word) : decodeWord w = .ok .cls ↔ w = 0x00E0#16 := by
  rcases decodeWord_cases w with ⟨hw, hd⟩ | ⟨ho, hd⟩ | ⟨ho, hd⟩ | ⟨ho, hd⟩ | ⟨ho, hd⟩ | ⟨ho, hd⟩ | ⟨hne, _, hd⟩
  case inl => exact iff_of_true hd hw
  case inr.inr.inr.inr.inr.inr => exact iff_of_false (by simp [hd]) hne
  all_goals exact iff_of_false (by simp [hd]) (ne_cls_of_opField ho (by decide))

namespace Machine

/-- R410's effect: CLS writes the display and completes. -/
theorem exec_cls (s : State) : exec .cls s = .next (s.setDisp clearedDisplay) := rfl

/-- Settles O15: the next state is `exec_cls`'s; its pixels are `Display.pixel_cleared`, the rest is `setDisp`'s frame. -/
theorem clsTurnsEveryPixelOff : Obligations.ClsTurnsEveryPixelOff := by
  unfold Obligations.ClsTurnsEveryPixelOff
  refine ⟨decodeWord_eq_cls_iff, fun s => ⟨_, exec_cls s, ?_, s.reg_setDisp _, s.setDisp_pc _, s.setDisp_i _, ?_⟩⟩
  · intro x y
    rw [State.setDisp_disp, Display.pixel_cleared]
  · intro a
    rw [State.setDisp_mem]

end Machine
end Sys2Proof
end

