-- ==== Sys2Proof/Proofs/JumpRules.lean ====
section
/-! The statement about JP (42_jump.md): its effect with the frame, at dispatch and over a whole STEP. -/

namespace Sys2Proof.Machine

/-- R420's effect: JP writes pc, unchecked, and completes. -/
theorem exec_jp (nnn : Addr12) (s : State) : exec (.jp nnn) s = .next (s.setPc (zext16 nnn)) := rfl

/-- Dispatching a word of R308 runs its instruction (R404). -/
theorem dispatchWord_of_decodeWord {w : Word} {i : Instr} (h : decodeWord w = .ok i) (s : State) :
    dispatchWord w s = exec i s := by
  simp only [dispatchWord, h]

/-- A STEP at a word of the JP row completes, the target over the fetch's pc + 2 (R420). -/
theorem step_of_fetchWord_jp {s : State} {w : Word} (hf : s.fetchWord = .ok w)
    (hjp : w &&& 0xF000#16 = 0x1000#16) : step s = .next (s.advancePc.setPc (zext16 (nnnField w))) := by
  have hd : decodeWord w = .ok (.jp (nnnField w)) := decodeWord_of_opField_jp ((mask_eq_jp_iff w).1 hjp)
  rw [step_of_fetchWord hf, dispatchWord_of_decodeWord hd, exec_jp]

/-- Settles O16: both next states are a `setPc` of the zero-extended target, whose number is the field's; the rest is
`setPc`'s frame. -/
theorem jpSetsPcToItsTarget : Obligations.JpSetsPcToItsTarget := by
  unfold Obligations.JpSetsPcToItsTarget
  constructor
  · intro nnn s
    refine ⟨_, exec_jp nnn s, ?_, s.reg_setPc _, s.setPc_i _, s.setPc_disp _, ?_⟩
    · rw [State.setPc_pc, zext16_toNat]
    · intro a
      rw [State.setPc_mem]
  · intro s w hf hjp
    refine ⟨_, step_of_fetchWord_jp hf hjp, ?_⟩
    rw [State.setPc_pc, zext16_toNat, nnnField_toNat]

end Sys2Proof.Machine
end

