-- ==== Sys2Proof/Proofs/ImmediateRules.lean ====
section
/-! The statements about LD, ADD and LD I (43_register_immediate.md): their rows, their effects and their frames. -/

namespace Sys2Proof.Machine

/-- R430's effect: LD writes its register and completes. -/
theorem exec_ld (x : RegIdx) (nn : Byte) (s : State) : exec (.ld x nn) s = .next (s.setReg x nn) := rfl

/-- R431's effect: ADD writes its register and completes. -/
theorem exec_add (x : RegIdx) (nn : Byte) (s : State) :
    exec (.add x nn) s = .next (s.setReg x (BitVec.ofNat 8 (((s.reg x).toNat + nn.toNat) % 256))) := rfl

/-- R432's effect: LD I writes the address register and completes. -/
theorem exec_ldI (nnn : Addr12) (s : State) : exec (.ldI nnn) s = .next (s.setI (zext16 nnn)) := rfl

/-- A write to one register leaves the other registers and every other entity of the state. -/
theorem State.setReg_frame (s : State) (x : RegIdx) (b : Byte) :
    (∀ r, r ≠ x → (s.setReg x b).reg r = s.reg r) ∧ (s.setReg x b).pc = s.pc ∧ (s.setReg x b).i = s.i ∧
      (s.setReg x b).disp = s.disp ∧ ∀ a, (s.setReg x b).mem.read a = s.mem.read a := by
  refine ⟨fun r hr => s.reg_setReg_ne b hr, s.setReg_pc x b, s.setReg_i x b, s.setReg_disp x b, fun a => ?_⟩
  rw [State.setReg_mem]

/-- Zero-extension leaves the high nibble zero (R307). -/
theorem opField_zext16 (nnn : Addr12) : opField (zext16 nnn) = 0#4 := by
  have := nnn.isLt
  apply BitVec.eq_of_toNat_eq
  rw [opField_toNat, zext16_toNat, BitVec.toNat_ofNat]
  omega

/-- Settles O17: the next state is `exec_ld`'s, the rest is `setReg`'s frame. -/
theorem ldSetsItsRegister : Obligations.LdSetsItsRegister := by
  unfold Obligations.LdSetsItsRegister
  constructor
  · intro w hw
    exact decodeWord_of_opField_ld ((mask_eq_append_iff w 0x6#4).1 hw)
  · intro x nn s
    exact ⟨_, exec_ld x nn s, s.reg_setReg_same x nn, s.setReg_frame x nn⟩

/-- Settles O18: the sum `exec_add` writes is already below 256, so the byte holds it whole; the rest is `setReg`'s
frame. -/
theorem addWrapsModulo256AndWritesNoFlag : Obligations.AddWrapsModulo256AndWritesNoFlag := by
  unfold Obligations.AddWrapsModulo256AndWritesNoFlag
  constructor
  · intro w hw
    exact decodeWord_of_opField_add ((mask_eq_append_iff w 0x7#4).1 hw)
  · intro x nn s
    refine ⟨_, exec_add x nn s, ?_, s.setReg_frame x _⟩
    rw [State.reg_setReg_same, BitVec.toNat_ofNat, Nat.mod_mod]

/-- Settles O19: I becomes `exec_ldI`'s zero-extended field, whose high nibble is `opField_zext16`; the rest is
`setI`'s frame. -/
theorem ldISetsTheAddressRegister : Obligations.LdISetsTheAddressRegister := by
  unfold Obligations.LdISetsTheAddressRegister
  constructor
  · intro w hw
    exact decodeWord_of_opField_ldI ((mask_eq_append_iff w 0xA#4).1 hw)
  · intro nnn s
    refine ⟨_, exec_ldI nnn s, ?_, opField_zext16 nnn, s.reg_setI _, s.setI_pc _, s.setI_disp _, fun a => ?_⟩
    · rw [State.setI_i, zext16_toNat]
    · rw [State.setI_mem]

end Sys2Proof.Machine
end

