-- ==== Sys2Proof/Proofs/Draw.lean ====
section
/-! SUPPORT. DRW as one effect: when it completes, what it faults with, and what its next state holds, each said once
over the laws of its loops. -/

namespace Sys2Proof.Machine

section
variable (x y : RegIdx) (n : Height) (s : State)

/-! ## What DRW answers -/

/-- The canvas after DRW's loops over the whole sprite (R440, step 3). -/
def blit : Canvas := drawRows s.mem s.i.toNat (anchorX s x) (anchorY s y) n.val 0 ⟨s.disp, false⟩

/-- The state after a DRW that completes: the blit's display, and VF from its collision (R448). -/
def drawn : State := (s.setDisp (blit x y n s).disp).setFlag (blit x y n s).collision

/-- The check of R443 finds nothing exactly when every row not vertically clipped lies in memory. -/
theorem firstRowOutOfRange_none_iff_rowsFit :
    firstRowOutOfRange s.i.toNat (anchorY s y) n.val 0 = none ↔ rowsFit s y n := by
  rw [firstRowOutOfRange_none]
  simp [anchorY]

/-- DRW completes with `drawn` where every row it reads lies in memory, else it faults with what the check found. -/
theorem exec_drw_cases :
    (∃ a, firstRowOutOfRange s.i.toNat (anchorY s y) n.val 0 = some a ∧
      exec (.drw x y n) s = .fault (.addressOutOfRange .spriteRead a)) ∨
    (rowsFit s y n ∧ exec (.drw x y n) s = .next (drawn x y n s)) := by
  obtain h | ⟨hnone, _, rfl, h⟩ := execDrw_cases x y n s
  · exact .inl h
  · exact .inr ⟨(firstRowOutOfRange_none_iff_rowsFit y n s).1 hnone, h⟩

theorem exec_drw_of_rowsFit {y : RegIdx} {n : Height} {s : State} (hfit : rowsFit s y n) :
    exec (.drw x y n) s = .next (drawn x y n s) := by
  obtain ⟨a, hsome, _⟩ | ⟨_, h⟩ := exec_drw_cases x y n s
  · cases hsome.symm.trans ((firstRowOutOfRange_none_iff_rowsFit y n s).2 hfit)
  · exact h

theorem exec_drw_next {x y : RegIdx} {n : Height} {s t : State} (h : exec (.drw x y n) s = .next t) :
    rowsFit s y n ∧ t = drawn x y n s := by
  obtain ⟨a, _, hfault⟩ | ⟨hfit, hnext⟩ := exec_drw_cases x y n s
  · cases h.symm.trans hfault
  · exact ⟨hfit, Host.Outcome.next.inj (h.symm.trans hnext)⟩

/-- The address the check of R443 reports: the first row above 0xFFE among those not vertically clipped. -/
theorem firstRowOutOfRange_some_iff (a : Nat) :
    firstRowOutOfRange s.i.toNat (anchorY s y) n.val 0 = some a ↔
      ∃ r, r < min n.val (32 - (s.reg y).toNat % 32) ∧ 0xFFE < s.i.toNat + r ∧
        (∀ q < r, s.i.toNat + q ≤ 0xFFE) ∧ a = s.i.toNat + r := by
  rw [firstRowOutOfRange_some]
  refine exists_congr fun r => ?_
  constructor
  · rintro ⟨_, hn, hclip, rfl, hout, hfirst⟩
    rw [anchorY] at hclip
    exact ⟨by omega, hout, fun q => hfirst q q.zero_le, rfl⟩
  · rintro ⟨hr, hout, hfirst, rfl⟩
    rw [anchorY]
    exact ⟨r.zero_le, by omega, by omega, rfl, hout, fun q _ => hfirst q⟩

theorem exec_drw_eq_fault_iff (f : Fault) :
    exec (.drw x y n) s = .fault f ↔
      ∃ a, firstRowOutOfRange s.i.toNat (anchorY s y) n.val 0 = some a ∧ f = .addressOutOfRange .spriteRead a := by
  obtain ⟨a, hsome, h⟩ | ⟨hfit, h⟩ := exec_drw_cases x y n s
  · rw [h, hsome]
    simp [eq_comm]
  · rw [h, (firstRowOutOfRange_none_iff_rowsFit y n s).2 hfit]
    simp

/-! ## The picture -/

/-- The loops toggle exactly the pixels the sprite covers (R444-R447). -/
theorem blit_pixel (px : Col) (py : Row) :
    (blit x y n s).disp.pixel px py = (s.disp.pixel px py ^^ spriteCovers s x y n px py) := by
  rw [blit, drawRows_pixel]
  rfl

/-- There is a collision exactly when a covered pixel was on (R447). -/
theorem blit_collision :
    (blit x y n s).collision = true ↔
      ∃ px py, spriteCovers s x y n px py = true ∧ s.disp.pixel px py = true := by
  rw [blit, drawRows_collision]
  simp [spriteCovers, spriteBit, anchorX, anchorY, and_assoc]

/-- A sprite of no rows runs no loop (R449). -/
theorem blit_zero : blit x y 0 s = ⟨s.disp, false⟩ := rfl

/-! ## The next state -/

@[simp] theorem drawn_mem : (drawn x y n s).mem = s.mem := rfl
@[simp] theorem drawn_pc : (drawn x y n s).pc = s.pc := rfl
@[simp] theorem drawn_i : (drawn x y n s).i = s.i := rfl
@[simp] theorem drawn_disp : (drawn x y n s).disp = (blit x y n s).disp := rfl

@[simp] theorem drawn_reg_flag : (drawn x y n s).reg 0xF = collisionFlag (blit x y n s).collision :=
  State.reg_setFlag_flag _ _

@[simp] theorem drawn_reg_ne {r : RegIdx} (h : r ≠ 0xF) : (drawn x y n s).reg r = s.reg r := by
  rw [drawn, State.reg_setFlag_ne _ _ h, State.reg_setDisp]

/-- R453: what DRW leaves as it was. -/
theorem drawn_frame :
    (∀ r, r ≠ 0xF → (drawn x y n s).reg r = s.reg r) ∧ (drawn x y n s).pc = s.pc ∧ (drawn x y n s).i = s.i ∧
      ∀ a, (drawn x y n s).mem.read a = s.mem.read a :=
  ⟨fun _ hr => drawn_reg_ne x y n s hr, drawn_pc x y n s, drawn_i x y n s, fun a => by rw [drawn_mem]⟩

/-! ## VF -/

theorem collisionFlag_eq_one_iff (c : Bool) : collisionFlag c = 1#8 ↔ c = true := by
  cases c <;> decide

theorem collisionFlag_eq_zero_iff (c : Bool) : collisionFlag c = 0#8 ↔ ¬c = true := by
  cases c <;> decide

/-- R448: VF is 1 exactly when a covered pixel was on. -/
theorem drawn_flag_eq_one_iff :
    (drawn x y n s).reg 0xF = 1#8 ↔ ∃ px py, spriteCovers s x y n px py = true ∧ s.disp.pixel px py = true := by
  rw [drawn_reg_flag, collisionFlag_eq_one_iff, blit_collision]

theorem drawn_flag_eq_zero_iff :
    (drawn x y n s).reg 0xF = 0#8 ↔ ¬∃ px py, spriteCovers s x y n px py = true ∧ s.disp.pixel px py = true := by
  rw [drawn_reg_flag, collisionFlag_eq_zero_iff, blit_collision]

/-! ## The same DRW again (R454) -/

section
variable {x y} (hx : x ≠ 0xF) (hy : y ≠ 0xF) (p : Word)
include hy

/-- Unless the row coordinate is VF, the second draw reads the rows of the first. -/
theorem rowsFit_drawn_setPc (hfit : rowsFit s y n) : rowsFit ((drawn x y n s).setPc p) y n := by
  simpa [rowsFit, hy] using hfit

include hx

/-- Unless a coordinate is VF, the second draw has the sprite of the first. -/
theorem spriteCovers_drawn_setPc (px : Col) (py : Row) :
    spriteCovers ((drawn x y n s).setPc p) x y n px py = spriteCovers s x y n px py := by
  simp [spriteCovers, hx, hy]

/-- Toggling the covered pixels twice restores them. -/
theorem drawn_drawn_disp : (drawn x y n ((drawn x y n s).setPc p)).disp = s.disp := by
  refine Display.ext_pixel fun px py => ?_
  rw [drawn_disp, blit_pixel, spriteCovers_drawn_setPc n s hx hy p, State.setPc_disp, drawn_disp, blit_pixel,
    Bool.xor_assoc, Bool.xor_self, Bool.xor_false]

/-- A covered pixel is on before the second draw exactly when it was off before the first. -/
theorem exists_covered_on_drawn_setPc_iff :
    (∃ px py, spriteCovers ((drawn x y n s).setPc p) x y n px py = true ∧
        ((drawn x y n s).setPc p).disp.pixel px py = true) ↔
      ∃ px py, spriteCovers s x y n px py = true ∧ s.disp.pixel px py = false := by
  refine exists_congr fun px => exists_congr fun py => ?_
  rw [spriteCovers_drawn_setPc n s hx hy p, State.setPc_disp, drawn_disp, blit_pixel]
  refine and_congr_right fun hcov => ?_
  rw [hcov, Bool.xor_true, Bool.not_eq_true']

end

end

/-! ## A STEP that faults after its fetch -/

/-- Whatever fault follows a successful fetch, only pc has changed (R608, R609). -/
theorem stateAfter_of_fetchWord_of_fault {s : State} {w : Word} {f : Fault} (hf : s.fetchWord = .ok w)
    (h : step s = .fault f) : stateAfter s = s.advancePc := by
  rw [step_of_fetchWord hf] at h
  simp only [stateAfter, hf, h]

end Sys2Proof.Machine
end

