-- ==== Sys2Proof/Proofs/DrawRules.lean ====
section
/-! The statements about DRW (44_draw.md): its picture, VF, its frame, its bound, and drawing twice. -/

namespace Sys2Proof.Machine

/-- Settles O20: the loops' display is the picture's, `blit_pixel`. -/
theorem drwXorsTheClippedSpriteOntoTheDisplay : Obligations.DrwXorsTheClippedSpriteOntoTheDisplay := by
  unfold Obligations.DrwXorsTheClippedSpriteOntoTheDisplay
  exact fun x y n s hfit => ⟨_, exec_drw_of_rowsFit x hfit, blit_pixel x y n s⟩

/-- Settles O21: VF's two values are `drawn_flag_eq_one_iff` and `drawn_flag_eq_zero_iff`. -/
theorem drwReportsTheCollisionInVF : Obligations.DrwReportsTheCollisionInVF := by
  unfold Obligations.DrwReportsTheCollisionInVF
  exact fun x y n s hfit => ⟨_, exec_drw_of_rowsFit x hfit, (drawn_flag_eq_one_iff x y n s).2,
    (drawn_flag_eq_zero_iff x y n s).2⟩

/-- Settles O22: the next state is `drawn`, whose frame is `drawn_frame`. -/
theorem drwLeavesEverythingButDisplayAndVF : Obligations.DrwLeavesEverythingButDisplayAndVF := by
  unfold Obligations.DrwLeavesEverythingButDisplayAndVF
  intro x y n s t h
  obtain ⟨_, rfl⟩ := exec_drw_next h
  exact drawn_frame x y n s

/-- Settles O23: the check runs before the loops and finds the first offending row; the STEP that raises its fault
keeps the fetch's advance alone. -/
theorem drwChecksEveryRowBeforeWriting : Obligations.DrwChecksEveryRowBeforeWriting := by
  unfold Obligations.DrwChecksEveryRowBeforeWriting
  refine ⟨fun x y n s f => ?_, fun x y n s w f hf _ h => stateAfter_of_fetchWord_of_fault hf h⟩
  rw [exec_drw_eq_fault_iff]
  simp only [firstRowOutOfRange_some_iff]
  constructor
  · rintro ⟨_, ⟨r, hr, hout, hfirst, rfl⟩, rfl⟩
    exact ⟨r, hr, hout, hfirst, rfl⟩
  · rintro ⟨r, hr, hout, hfirst, rfl⟩
    exact ⟨_, ⟨r, hr, hout, hfirst, rfl⟩, rfl⟩

/-- Settles O24: no row is left to check or to draw (`blit_zero`); the rest is `drawn_frame`. -/
theorem drwOfNoRowsOnlyClearsVF : Obligations.DrwOfNoRowsOnlyClearsVF := by
  unfold Obligations.DrwOfNoRowsOnlyClearsVF
  intro x y s
  have hfit : rowsFit s y 0 := fun r hr => absurd hr r.not_lt_zero
  refine ⟨_, exec_drw_of_rowsFit x hfit, ?_, ?_, drawn_frame x y 0 s⟩
  · rw [drawn_disp, blit_zero]
  · rw [drawn_reg_flag, blit_zero]
    rfl

/-- A dot to be drawn at column 5, with VF as the column: the first draw clears VF, so the second is at column 0. -/
def dotAtVF : State :=
  { State.reset with mem := [(0x300, 0x80#8)], i := 0x300#16, v := (Vector.replicate 16 0#8).set 15 0x05#8 }

/-- Settles O27: off VF the second draw has the first one's sprite, and toggling twice restores; `dotAtVF` is the
exception. -/
theorem drawingTwiceRestoresTheDisplay : Obligations.DrawingTwiceRestoresTheDisplay := by
  unfold Obligations.DrawingTwiceRestoresTheDisplay
  refine ⟨?_, ?_, ?_⟩
  · intro x y n s t p hx hy h
    obtain ⟨hfit, rfl⟩ := exec_drw_next h
    have hcov := exists_covered_on_drawn_setPc_iff n s hx hy p
    refine ⟨_, exec_drw_of_rowsFit x (rowsFit_drawn_setPc n s hy p hfit), drawn_drawn_disp n s hx hy p, ?_, ?_⟩
    · exact (drawn_flag_eq_one_iff x y n _).trans hcov
    · exact (drawn_flag_eq_zero_iff x y n _).trans (not_congr hcov)
  · intro x y n s t h hoff
    obtain ⟨_, rfl⟩ := exec_drw_next h
    refine (drawn_flag_eq_zero_iff x y n s).2 fun ⟨px, py, hcov, hon⟩ => ?_
    exact Bool.false_ne_true ((hoff px py hcov).symm.trans hon)
  · have hfirst : rowsFit dotAtVF 0 1 := by decide
    have hsecond : rowsFit (drawn 0xF 0 1 dotAtVF) 0 1 := by decide
    refine ⟨0, 1, dotAtVF, _, _, exec_drw_of_rowsFit 0xF hfirst, exec_drw_of_rowsFit 0xF hsecond, fun h => ?_⟩
    have hdot : (drawn 0xF 0 1 (drawn 0xF 0 1 dotAtVF)).disp.pixel 5 0 = true := by decide
    rw [h] at hdot
    exact absurd hdot (by decide)

end Sys2Proof.Machine
end

