-- ==== Sys2Proof/Proofs/Faults.lean ====
section
/-! SUPPORT. Exactly when an instruction, a dispatch, a STEP and a construction fault, each said once over the one below
it, and what a construction's registers, I and display hold. -/

namespace Sys2Proof.Machine

/-! ## Faults of a STEP -/

/-- The fault `f` of DRW's row bound, SPRITE_READ of the first row above 0xFFE among those it draws (R443, R604). -/
def SpriteFault (y : RegIdx) (n : Height) (s : State) (f : Fault) : Prop :=
  ∃ r, r < min n.val (32 - (s.reg y).toNat % 32) ∧ 0xFFE < s.i.toNat + r ∧ (∀ q < r, s.i.toNat + q ≤ 0xFFE) ∧
    f = .addressOutOfRange .spriteRead (s.i.toNat + r)

/-- The bound reads I and one register, so the fetch's advance does not move it. -/
theorem spriteFault_advancePc_iff (y : RegIdx) (n : Height) (s : State) (f : Fault) :
    SpriteFault y n s.advancePc f ↔ SpriteFault y n s f := Iff.rfl

/-- Of the instructions only DRW faults, by its row bound (R604, R606). -/
theorem exec_eq_fault_iff (i : Instr) (s : State) (f : Fault) :
    exec i s = .fault f ↔ ∃ x y n, i = .drw x y n ∧ SpriteFault y n s f := by
  obtain ⟨hdrw, _⟩ := drwChecksEveryRowBeforeWriting
  cases i with
  | cls => simp [exec_cls]
  | jp nnn => simp [exec_jp]
  | ld x nn => simp [exec_ld]
  | add x nn => simp [exec_add]
  | ldI nnn => simp [exec_ldI]
  | drw x y n => simp [hdrw, SpriteFault]

/-- Dispatch checks the decode before the row bound (R607). -/
theorem dispatchWord_eq_fault_iff (w : Word) (s : State) (f : Fault) :
    dispatchWord w s = .fault f ↔
      (decodeWord w = .error (.unimplemented w) ∧ f = .unimplemented w) ∨
      ∃ x y n, decodeWord w = .ok (.drw x y n) ∧ SpriteFault y n s f := by
  cases hd : decodeWord w with
  | error e =>
    obtain rfl := decodeWord_error hd
    simp [dispatchWord_of_unimplemented hd, eq_comm]
  | ok i => simp [dispatchWord_of_decodeWord hd, exec_eq_fault_iff]

/-- A STEP checks the fetch bound before it dispatches (R607). -/
theorem step_eq_fault_iff (s : State) (f : Fault) :
    step s = .fault f ↔
      (0xFFD < s.pc.toNat ∧ f = .addressOutOfRange .fetch s.pc.toNat) ∨
      ∃ w, s.fetchWord = .ok w ∧ dispatchWord w s.advancePc = .fault f := by
  obtain ⟨hpc, hf⟩ | ⟨hpc, hf⟩ := fetchWord_cases s
  · simp [step_of_fetchWord hf, hf, hpc.not_gt]
  · simp [step_of_pc_beyond hpc, hf, hpc, eq_comm]

/-! ## Construction -/

theorem construct_eq_error_iff (rom : List Byte) (f : Fault) :
    construct rom = .error f ↔ 0xDFF < rom.length ∧ f = .addressOutOfRange .romLoad 0xFFF := by
  obtain ⟨hlen, hc⟩ | ⟨hlen, hc⟩ := construct_cases rom
  · simp [hc, hlen, eq_comm]
  · simp [hc, hlen.not_gt]

section
variable {rom : List Byte} {s : State} (h : construct rom = .ok s)
include h

theorem construct_reg (r : RegIdx) : s.reg r = 0#8 := by
  obtain ⟨_, rfl⟩ := construct_ok h
  simp [State.reg, State.reset]

theorem construct_i : s.i = 0#16 := by
  obtain ⟨_, rfl⟩ := construct_ok h
  rfl

theorem construct_disp : s.disp = clearedDisplay := by
  obtain ⟨_, rfl⟩ := construct_ok h
  rfl

end

end Sys2Proof.Machine
end

