-- ==== Sys2Proof/Proofs/ExceptionRules.lean ====
section
/-! The statements about faults and construction (60_exceptions.md, 70_reset_and_hazards.md). -/

namespace Sys2Proof.Machine

/-- Settles O12: `step_eq_fault_iff` and `dispatchWord_eq_fault_iff` give the three cases in R607's order. -/
theorem stepFaultsExactlyInTheThreeCases : Obligations.StepFaultsExactlyInTheThreeCases := by
  unfold Obligations.StepFaultsExactlyInTheThreeCases
  refine ⟨fun rom f hc => ((construct_eq_error_iff rom f).1 hc).2, fun s f => ?_⟩
  simp only [step_eq_fault_iff, dispatchWord_eq_fault_iff, spriteFault_advancePc_iff]
  refine or_congr_right ⟨?_, ?_⟩
  · rintro ⟨w, hf, ⟨hd, rfl⟩ | ⟨x, y, n, hd, r, hrow⟩⟩
    · exact .inl ⟨w, hf, hd, rfl⟩
    · exact .inr ⟨w, x, y, n, r, hf, hd, hrow⟩
  · rintro (⟨w, hf, hd, rfl⟩ | ⟨w, x, y, n, r, hf, hd, hrow⟩)
    · exact ⟨w, hf, .inl ⟨hd, rfl⟩⟩
    · exact ⟨w, hf, .inr ⟨x, y, n, hd, r, hrow⟩⟩

/-- Settles O13: `step_eq_fault_iff` tells a failed fetch, after which nothing has changed, from a fault of the
dispatch, after which only pc has. -/
theorem faultLeavesNothingButThePcAdvance : Obligations.FaultLeavesNothingButThePcAdvance := by
  unfold Obligations.FaultLeavesNothingButThePcAdvance
  intro s f h
  obtain ⟨hpc, rfl⟩ | ⟨w, hf, hdispatch⟩ := (step_eq_fault_iff s f).1 h
  · exact .inl ⟨_, rfl, stateAfter_of_pc_beyond hpc⟩
  · have hafter := stateAfter_of_fetchWord_of_fault hf h
    obtain ⟨_, rfl⟩ | ⟨_, _, _, _, r, _, _, _, rfl⟩ := (dispatchWord_eq_fault_iff w _ f).1 hdispatch
    · exact .inr (.inl ⟨w, rfl, hafter⟩)
    · exact .inr (.inr ⟨_, rfl, hafter⟩)

/-- Settles O36: the two cases of `construct_cases`, and one lemma for each piece of the constructed state. -/
theorem constructionFixesEveryPieceOfState : Obligations.ConstructionFixesEveryPieceOfState := by
  unfold Obligations.ConstructionFixesEveryPieceOfState
  refine ⟨fun rom hlen => ?_, fun rom hlen => (construct_eq_error_iff rom _).2 ⟨hlen, rfl⟩⟩
  obtain ⟨hlong, _⟩ | ⟨_, hc⟩ := construct_cases rom
  · omega
  · refine ⟨_, hc, fun a _ => construct_mem_read hc a, construct_reg hc, construct_pc hc, construct_i hc, ?_⟩
    intro x y
    rw [construct_disp hc, Display.pixel_cleared]

end Sys2Proof.Machine
end

