-- ==== Sys2Proof/Proofs/ResetRules.lean ====
section
/-! The statement about a JP to its own address (70_reset_and_hazards.md), with what it needs about a STEP that
completes. -/

namespace Sys2Proof.Machine

/-- A STEP that completes leaves the block in its next state. -/
theorem stateAfter_of_next {s t : State} (h : step s = .next t) : stateAfter s = t := by
  obtain ⟨hstatus, _⟩ := everyTransactionReturnsOneStatus
  obtain ⟨t', hnext, hafter, _⟩ | ⟨f, hfault, _⟩ := hstatus s
  · obtain rfl : t = t' := Host.Outcome.next.inj (h.symm.trans hnext)
    exact hafter
  · cases h.symm.trans hfault

/-- A JP whose target is its own address undoes the fetch's advance (R420, R710). -/
theorem step_of_self_jump {s : State} {w : Word} (hf : s.fetchWord = .ok w) (hjp : w &&& 0xF000#16 = 0x1000#16)
    (hself : w.toNat % 4096 = s.pc.toNat) : step s = .next s := by
  have htarget : zext16 (nnnField w) = s.pc := by
    apply BitVec.eq_of_toNat_eq
    rw [zext16_toNat, nnnField_toNat, hself]
  have hback : s.advancePc.setPc s.pc = s := rfl
  rw [step_of_fetchWord_jp hf hjp, htarget, hback]

/-- Settles O37: the self-jump's STEP completes in the state it began in, a fixed point of every number of STEPs. -/
theorem selfJumpIsAFixedPoint : Obligations.SelfJumpIsAFixedPoint := by
  unfold Obligations.SelfJumpIsAFixedPoint
  intro s w hf hjp hself
  have hstep := step_of_self_jump hf hjp hself
  have hfixed := stateAfter_of_next hstep
  refine ⟨hstep, fun k => ⟨afterSteps_of_fixed hfixed k, ?_⟩⟩
  rw [statuses_of_fixed hfixed, stepStatus_of_next hstep]

end Sys2Proof.Machine
end

