-- ==== Sys2Proof/Proofs/Encoder.lean ====
section
/-! SUPPORT. The encoder against the decoder: a word put together from fields has those fields, and a word taken apart
into its fields is put together from them again. -/

namespace Sys2Proof

/-! ## From fields to a word and back to the fields -/

/-- Bit vectors side by side as a number: the left one stands above all bits of the right one. -/
theorem append_toNat {m n : Nat} (a : BitVec m) (b : BitVec n) : (a ++ b).toNat = a.toNat * 2 ^ n + b.toNat := by
  rw [BitVec.toNat_append, ← Nat.shiftLeft_add_eq_or_of_lt b.isLt, Nat.shiftLeft_eq]

/-- A field of four bits holds every register index and every sprite height (R301-R303). -/
@[simp] theorem ofNat_four_toNat (k : Fin 16) : (BitVec.ofNat 4 k.val).toNat = k.val := Nat.mod_eq_of_lt k.isLt

section
variable (op : BitVec 4) (x y : RegIdx) (n : Height) (nn : Byte)

theorem xField_append : xField (op ++ (BitVec.ofNat 4 x.val ++ nn)) = x := by
  apply Fin.ext
  rw [xField_val, append_toNat, append_toNat, ofNat_four_toNat]
  omega

theorem nnField_append (a : BitVec 4) : nnField (op ++ (a ++ nn)) = nn := by
  apply BitVec.eq_of_toNat_eq
  rw [nnField_toNat, append_toNat, append_toNat]
  omega

/-- The second register index and the height are the two halves of the low byte (R302-R304). -/
theorem yField_val_eq_nnField (w : Word) : (yField w).val = (nnField w).toNat / 16 := by
  rw [yField_val, nnField_toNat]
  omega

theorem nField_val_eq_nnField (w : Word) : (nField w).val = (nnField w).toNat % 16 := by
  rw [nField_val, nnField_toNat]
  omega

theorem yField_append (a : BitVec 4) :
    yField (op ++ (a ++ (BitVec.ofNat 4 y.val ++ BitVec.ofNat 4 n.val))) = y := by
  apply Fin.ext
  rw [yField_val_eq_nnField, nnField_append, append_toNat, ofNat_four_toNat, ofNat_four_toNat]
  omega

theorem nField_append (a : BitVec 4) :
    nField (op ++ (a ++ (BitVec.ofNat 4 y.val ++ BitVec.ofNat 4 n.val))) = n := by
  apply Fin.ext
  rw [nField_val_eq_nnField, nnField_append, append_toNat, ofNat_four_toNat, ofNat_four_toNat]
  omega

end

/-- The decoder undoes the encoder: the high nibble selects the instruction's row, and the row's fields are its
operands (R308). -/
theorem decodeWord_encode (i : Instr) : decodeWord (encode i) = .ok i := by
  cases i with
  | cls => exact (decodeWord_eq_cls_iff _).2 rfl
  | jp nnn => rw [encode, decodeWord_of_opField_jp (opField_append _ _), nnnField_append]
  | ld x nn => rw [encode, decodeWord_of_opField_ld (opField_append _ _), xField_append, nnField_append]
  | add x nn => rw [encode, decodeWord_of_opField_add (opField_append _ _), xField_append, nnField_append]
  | ldI nnn => rw [encode, decodeWord_of_opField_ldI (opField_append _ _), nnnField_append]
  | drw x y n =>
    rw [encode, decodeWord_of_opField_drw (opField_append _ _), xField_append, yField_append, nField_append]

/-! ## From a word to its fields and back to the word -/

theorem xField_append_nnField (w : Word) : BitVec.ofNat 4 (xField w).val ++ nnField w = nnnField w := by
  apply BitVec.eq_of_toNat_eq
  rw [append_toNat, ofNat_four_toNat, xField_val, nnField_toNat, nnnField_toNat]
  omega

theorem yField_append_nField (w : Word) :
    BitVec.ofNat 4 (yField w).val ++ BitVec.ofNat 4 (nField w).val = nnField w := by
  apply BitVec.eq_of_toNat_eq
  rw [append_toNat, ofNat_four_toNat, ofNat_four_toNat, yField_val, nField_val, nnField_toNat]
  omega

/-- The encoder undoes the decoder: the fields of a row cover every bit below the high nibble (R308). -/
theorem encode_of_decodeWord {w : Word} {i : Instr} (h : decodeWord w = .ok i) : encode i = w := by
  rcases decodeWord_cases w with ⟨hw, hd⟩ | ⟨ho, hd⟩ | ⟨ho, hd⟩ | ⟨ho, hd⟩ | ⟨ho, hd⟩ | ⟨ho, hd⟩ | ⟨_, _, hd⟩ <;>
    cases h.symm.trans hd
  · exact hw.symm
  · rw [encode, ← ho, opField_append_nnnField]
  · rw [encode, ← ho, xField_append_nnField, opField_append_nnnField]
  · rw [encode, ← ho, xField_append_nnField, opField_append_nnnField]
  · rw [encode, ← ho, opField_append_nnnField]
  · rw [encode, ← ho, yField_append_nField, xField_append_nnField, opField_append_nnnField]

end Sys2Proof
end

