-- ==== Sys2Proof/Proofs/RoundTripRules.lean ====
section
/-! The statements about the round trip of encoding and decoding (30_encoding.md), and its sample words. -/

namespace Sys2Proof.Machine

/-- Settles O5: the two bytes are the word's (`decode_word_bytes`), which decodes to the instruction. -/
theorem decodeOfEncodeIsTheInstruction : Obligations.DecodeOfEncodeIsTheInstruction := by
  unfold Obligations.DecodeOfEncodeIsTheInstruction
  intro i rest
  have hbytes := decode_word_bytes (encode i) rest
  rw [decodeWord_encode] at hbytes
  exact hbytes

/-- Settles O6: `encode_of_decodeWord`, row by row. -/
theorem encodeOfDecodeIsTheWord : Obligations.EncodeOfDecodeIsTheWord := by
  unfold Obligations.EncodeOfDecodeIsTheWord
  exact fun w i => encode_of_decodeWord

/-- Settles O2: eight closed words, evaluated. -/
theorem sampleWordsDecodeAsSpecified : Obligations.SampleWordsDecodeAsSpecified := by
  unfold Obligations.SampleWordsDecodeAsSpecified
  decide

end Sys2Proof.Machine
end

