-- ==== Sys2Proof/Proofs/Invariant.lean ====
section
/-! SUPPORT. What a STEP does to I, and the invariant over constructions, STEPs and reachable states. -/

namespace Sys2Proof.Machine

/-- A word that decodes to LD I has the high nibble 0xA and carries its operand in the low twelve bits (R432). -/
theorem fields_of_decodeWord_ldI {w : Word} {nnn : Addr12} (h : decodeWord w = .ok (.ldI nnn)) :
    opField w = 0xA#4 ∧ nnnField w = nnn := by
  obtain rfl := encode_of_decodeWord h
  exact ⟨opField_append _ _, nnnField_append _ _⟩

/-- What a STEP does to I: nothing, or the low twelve bits of the LD I it fetched (R107). -/
theorem stateAfter_i_cases (s : State) :
    (stateAfter s).i = s.i ∨
    ∃ w, s.fetchWord = .ok w ∧ opField w = 0xA#4 ∧ (stateAfter s).i = zext16 (nnnField w) := by
  obtain ⟨_, h⟩ | ⟨w, _, hf, hcases⟩ := stateAfter_cases s
  · exact .inl (by rw [h])
  rcases hcases with ⟨_, h⟩ | ⟨_, h⟩ | ⟨_, _, h⟩ | ⟨_, _, _, _, h⟩ | ⟨nnn, hd, h⟩ | ⟨_, _, _, _, h | ⟨_, _, h⟩⟩
  case inr.inr.inr.inr.inr.inl =>
    obtain ⟨hop, hnnn⟩ := fields_of_decodeWord_ldI hd
    exact .inr ⟨w, hf, hop, by rw [h, State.setI_i, hnnn]⟩
  all_goals exact .inl (by simp [h])

/-- A zero-extended field stays within twelve bits (R307). -/
theorem zext16_toNat_le (nnn : Addr12) : (zext16 nnn).toNat ≤ 0xFFF := by
  rw [zext16_toNat]
  exact Nat.le_of_lt_succ nnn.isLt

/-! ## The invariant, part by part -/

section
variable {s : State}

/-- A fetch that succeeds begins at 0xFFD at most, so its advance ends at 0xFFF at most; JP's target is a field. -/
theorem stateAfter_pc_le (h : s.pc.toNat ≤ 0xFFF) : (stateAfter s).pc.toNat ≤ 0xFFF := by
  obtain ⟨_, hs⟩ | ⟨w, hpc, _, ⟨_, hs⟩ | ⟨_, hs⟩⟩ := stateAfter_pc_cases s
  · rwa [hs]
  · rw [hs]
    exact zext16_toNat_le _
  · rw [hs, advance_toNat hpc]
    omega

theorem stateAfter_i_le (h : s.i.toNat ≤ 0xFFF) : (stateAfter s).i.toNat ≤ 0xFFF := by
  obtain hs | ⟨w, _, _, hs⟩ := stateAfter_i_cases s
  · rwa [hs]
  · rw [hs]
    exact zext16_toNat_le _

/-- A STEP keeps the invariant, whatever its status. -/
theorem stateAfter_inv (h : s.Inv) : (stateAfter s).Inv := by
  obtain ⟨hpc, hi, hmem⟩ := h
  exact ⟨stateAfter_pc_le hpc, stateAfter_i_le hi, by rwa [stateAfter_mem]⟩

theorem construct_inv {rom : List Byte} (h : construct rom = .ok s) : s.Inv := by
  have hmem : s.mem.wf := by
    obtain ⟨_, rfl⟩ := construct_ok h
    exact Memory.wf_writeBytes Memory.wf_nil
  exact ⟨by simp [construct_pc h], by simp [construct_i h], hmem⟩

/-- The invariant holds at every step boundary of every run. -/
theorem Reachable.inv (h : Reachable s) : s.Inv := by
  induction h with
  | constructed hc => exact construct_inv hc
  | stepped _ ih => exact stateAfter_inv ih

end

end Sys2Proof.Machine
end

