-- ==== Sys2Proof/Proofs/InvariantRules.lean ====
section
/-! The statements about the invariant and about who writes the registers, the display and I (10_state.md). -/

namespace Sys2Proof.Machine

/-- Settles O33: a STEP that completes leaves its next state, so both clauses are `stateAfter_inv`. -/
theorem everyStepKeepsTheInvariant : Obligations.EveryStepKeepsTheInvariant := by
  unfold Obligations.EveryStepKeepsTheInvariant
  refine ⟨fun s t hinv h => ?_, fun s => stateAfter_inv⟩
  rw [← stateAfter_of_next h]
  exact stateAfter_inv hinv

/-- Settles O34: `construct_inv`, of which the reset state is the case of the empty ROM. -/
theorem constructionAndResetMeetTheInvariant : Obligations.ConstructionAndResetMeetTheInvariant := by
  unfold Obligations.ConstructionAndResetMeetTheInvariant
  have hreset : construct [] = .ok State.reset := rfl
  exact ⟨fun rom s => construct_inv, hreset, construct_inv hreset⟩

/-- Settles O28, along the cases of `stateAfter_cases`: only LD, ADD and DRW write a register, each its own. -/
theorem onlyLdAddAndDrwWriteRegisters : Obligations.OnlyLdAddAndDrwWriteRegisters := by
  unfold Obligations.OnlyLdAddAndDrwWriteRegisters
  intro s r hne
  obtain ⟨_, h⟩ | ⟨w, _, hf, hcases⟩ := stateAfter_cases s
  · exact absurd (by rw [h]) hne
  rcases hcases with ⟨_, h⟩ | ⟨_, h⟩ | ⟨_, _, h⟩ | ⟨x, nn, _, hd, h⟩ | ⟨_, _, h⟩ | ⟨x, y, n, hd, h | ⟨_, _, h⟩⟩
  case inr.inr.inr.inr.inl =>
    obtain rfl : r = x := by_contra fun hr => hne (by rw [h, State.reg_setReg_ne _ _ hr, State.reg_advancePc])
    obtain hd | hd := hd
    · exact ⟨w, _, hf, hd, .inl ⟨nn, rfl⟩⟩
    · exact ⟨w, _, hf, hd, .inr (.inl ⟨nn, rfl⟩)⟩
  case inr.inr.inr.inr.inr.inr.inr =>
    have hr : r = 0xF := by_contra fun hr => hne (by
      rw [h, State.reg_setFlag_ne _ _ hr, State.reg_setDisp, State.reg_advancePc])
    exact ⟨w, _, hf, hd, .inr (.inr ⟨hr, x, y, n, rfl⟩)⟩
  all_goals exact absurd (by simp [h]) hne

/-- Settles O29, along the cases of `stateAfter_cases`: only CLS and DRW write the display. -/
theorem onlyClsAndDrwWriteTheDisplay : Obligations.OnlyClsAndDrwWriteTheDisplay := by
  unfold Obligations.OnlyClsAndDrwWriteTheDisplay
  intro s px py hne
  obtain ⟨_, h⟩ | ⟨w, _, hf, hcases⟩ := stateAfter_cases s
  · exact absurd (by rw [h]) hne
  rcases hcases with ⟨_, h⟩ | ⟨hd, h⟩ | ⟨_, _, h⟩ | ⟨_, _, _, _, h⟩ | ⟨_, _, h⟩ | ⟨x, y, n, hd, h | ⟨_, _, h⟩⟩
  case inr.inr.inl => exact ⟨w, _, hf, hd, .inl ⟨rfl, by rw [h, State.setDisp_disp, Display.pixel_cleared]⟩⟩
  case inr.inr.inr.inr.inr.inr.inr => exact ⟨w, _, hf, hd, .inr ⟨x, y, n, rfl⟩⟩
  all_goals exact absurd (by simp [h]) hne

/-- Settles O31: `stateAfter_i_cases` with the LD I row in its mask form, and I's part of the invariant. -/
theorem onlyLdIWritesTheAddressRegister : Obligations.OnlyLdIWritesTheAddressRegister := by
  unfold Obligations.OnlyLdIWritesTheAddressRegister
  refine ⟨fun s hne => ?_, fun rom s => construct_i, fun s hs => ?_⟩
  · obtain h | ⟨w, hf, hop, h⟩ := stateAfter_i_cases s
    · exact absurd h hne
    · exact ⟨w, hf, (mask_eq_append_iff w 0xA#4).2 hop, by rw [h, zext16_toNat, nnnField_toNat]⟩
  · obtain ⟨_, hi, _⟩ := hs.inv
    exact hi

end Sys2Proof.Machine
end

