-- ==== Sys2Proof/Proofs/DrawDependence.lean ====
section
/-! The statements about what DRW depends on (44_draw.md): its anchor of the registers, its rows of memory. A blit is
determined by the display before it and by the sprite as a picture. -/

namespace Sys2Proof.Machine

/-- A blit depends on the display before it and on the pixels its sprite covers, and on nothing else (R447, R448). -/
theorem blit_congr {x y x' y' : RegIdx} {n : Height} {s s' : State} (hdisp : s'.disp = s.disp)
    (hcov : ∀ px py, spriteCovers s' x' y' n px py = spriteCovers s x y n px py) :
    blit x' y' n s' = blit x y n s := by
  have hpixels : (blit x' y' n s').disp = (blit x y n s).disp :=
    Display.ext_pixel fun px py => by rw [blit_pixel, blit_pixel, hdisp, hcov]
  have hcollision : (blit x' y' n s').collision = (blit x y n s).collision := by
    rw [Bool.eq_iff_iff, blit_collision, blit_collision, hdisp]
    simp only [hcov]
  calc blit x' y' n s' = ⟨(blit x' y' n s').disp, (blit x' y' n s').collision⟩ := rfl
    _ = blit x y n s := by rw [hpixels, hcollision]

/-! ## The anchor -/

section
variable {x y x' y' : RegIdx} {n : Height} {s s' : State}

/-- The rows DRW checks are given by I and the anchor's row (R443). -/
theorem rowsFit_of_anchorY (hi : s'.i = s.i) (hy : anchorY s' y' = anchorY s y) (hfit : rowsFit s y n) :
    rowsFit s' y' n := by
  rw [← firstRowOutOfRange_none_iff_rowsFit] at hfit ⊢
  rwa [hi, hy]

/-- The pixels a sprite covers are given by memory, I and the anchor (R441). -/
theorem spriteCovers_of_anchor (hmem : s'.mem = s.mem) (hi : s'.i = s.i) (hx : anchorX s' x' = anchorX s x)
    (hy : anchorY s' y' = anchorY s y) (px : Col) (py : Row) :
    spriteCovers s' x' y' n px py = spriteCovers s x y n px py := by
  rw [anchorX, anchorX] at hx
  rw [anchorY, anchorY] at hy
  simp only [spriteCovers, hmem, hi, hx, hy]

end

/-- Settles O25: with the anchor the same, the check and the blit are the same. -/
theorem drwDependsOnlyOnItsAnchor : Obligations.DrwDependsOnlyOnItsAnchor := by
  unfold Obligations.DrwDependsOnlyOnItsAnchor
  intro x y x' y' n s t v' hx hy h
  obtain ⟨hfit, rfl⟩ := exec_drw_next h
  have hblit : blit x' y' n { s with v := v' } = blit x y n s :=
    blit_congr rfl (spriteCovers_of_anchor rfl rfl hx hy)
  have hfit' : rowsFit { s with v := v' } y' n := rowsFit_of_anchorY (s := s) rfl hy hfit
  refine ⟨_, exec_drw_of_rowsFit x' hfit', ?_, ?_⟩
  · rw [drawn_disp, drawn_disp, hblit]
  · rw [drawn_reg_flag, drawn_reg_flag, hblit]

/-! ## The rows -/

/-- A covered pixel's bit comes from a row of the sprite that is not clipped, so a memory that agrees there covers the
same pixels (R444, R445). -/
theorem spriteCovers_withMem {x y : RegIdx} {n : Height} {s : State} {m : Memory}
    (hrows : ∀ r < n.val, (s.reg y).toNat % 32 + r < 32 → m.read (s.i.toNat + r) = s.mem.read (s.i.toNat + r))
    (px : Col) (py : Row) : spriteCovers { s with mem := m } x y n px py = spriteCovers s x y n px py := by
  have hreg (r : RegIdx) : State.reg { s with mem := m } r = s.reg r := rfl
  simp only [spriteCovers, hreg]
  by_cases hin : (s.reg x).toNat % 64 ≤ px.val ∧ px.val < (s.reg x).toNat % 64 + 8 ∧
      (s.reg y).toNat % 32 ≤ py.val ∧ py.val < (s.reg y).toNat % 32 + n.val
  · have := py.isLt
    rw [hrows (py.val - (s.reg y).toNat % 32) (by omega) (by omega)]
  · simp [hin]

/-- Settles O26: the check reads no memory, and the blit is given by the pixels the sprite covers. -/
theorem drwReadsOnlyTheRowsItDraws : Obligations.DrwReadsOnlyTheRowsItDraws := by
  unfold Obligations.DrwReadsOnlyTheRowsItDraws
  intro x y n s m hrows
  obtain ⟨a, hsome, h⟩ | ⟨hfit, h⟩ := exec_drw_cases x y n s
  · rw [h]
    exact (exec_drw_eq_fault_iff x y n { s with mem := m } _).2 ⟨a, hsome, rfl⟩
  · have hblit : blit x y n { s with mem := m } = blit x y n s := blit_congr rfl (spriteCovers_withMem hrows)
    have hfit' : rowsFit { s with mem := m } y n := hfit
    rw [h, exec_drw_of_rowsFit x hfit', drawn, hblit]
    rfl

end Sys2Proof.Machine
end

