-- ==== Sys2Proof/Proofs/MemoryForm.lean ====
section
/-! The statements about the model's own form of memory (log entries 3, 4 and 8). What is listed in a canonical memory
is what it reads. -/

namespace Sys2Proof.Machine

/-- A canonical memory lists exactly the bytes it reads as other than the unlisted byte. -/
theorem Memory.mem_iff_read {m : Memory} (hm : m.wf) (a : Nat) (v : Byte) :
    (a, v) ∈ m ↔ v ≠ unlistedByte ∧ m.read a = v := by
  induction m with
  | nil => exact iff_of_false (by simp) fun ⟨hv, hread⟩ => hv hread.symm
  | cons c m ih =>
    obtain ⟨b, u⟩ := c
    obtain ⟨hlt, _, hu, hwf⟩ := Memory.wf_cons.1 hm
    by_cases hab : a = b
    · subst hab
      have hnotin : (a, v) ∉ m := fun hin => lt_irrefl a (hlt _ hin)
      have hhead : Memory.read ((a, u) :: m) a = u := if_pos rfl
      rw [List.mem_cons, or_iff_left hnotin, hhead]
      constructor
      · rintro ⟨⟩
        exact ⟨hu, rfl⟩
      · rintro ⟨_, rfl⟩
        rfl
    · have htail : Memory.read ((b, u) :: m) a = Memory.read m a := if_neg hab
      have hne : (a, v) ≠ (b, u) := fun h => hab (congrArg Prod.fst h)
      rw [List.mem_cons, or_iff_right hne, htail, ih hwf]

/-- A canonical memory lists no address twice. -/
theorem Memory.nodup_of_wf {m : Memory} (hm : m.wf) : m.Nodup := by
  obtain ⟨hsorted, _⟩ := hm
  exact hsorted.imp fun hlt h => hlt.ne (congrArg Prod.fst h)

/-- A canonical memory reads the unlisted byte wherever no byte is named (R200, log entry 8). -/
theorem Memory.read_above {m : Memory} {a : Nat} (hm : m.wf) (ha : 0xFFE < a) : m.read a = unlistedByte := by
  by_contra hread
  have hlisted : (a, m.read a) ∈ m := (Memory.mem_iff_read hm a _).2 ⟨hread, rfl⟩
  obtain ⟨_, hcells⟩ := hm
  obtain ⟨hle, _⟩ := hcells _ hlisted
  exact absurd hle (not_le.2 ha)

/-- Settles O40: memories that read alike list the same cells, and a rising list is given by its members. -/
theorem canonicalMemoriesThatReadAlikeAreEqual : Obligations.CanonicalMemoriesThatReadAlikeAreEqual := by
  unfold Obligations.CanonicalMemoriesThatReadAlikeAreEqual
  intro m m' hm hm' hread
  have hcells : ∀ c, c ∈ m ↔ c ∈ m' := fun (a, v) => by
    rw [Memory.mem_iff_read hm, Memory.mem_iff_read hm', hread]
  have hperm : m.Perm m' := (List.perm_ext_iff_of_nodup (Memory.nodup_of_wf hm) (Memory.nodup_of_wf hm')).2 hcells
  obtain ⟨hsorted, _⟩ := hm
  obtain ⟨hsorted', _⟩ := hm'
  exact hperm.eq_of_pairwise (fun _ _ _ _ hlt hgt => absurd hgt hlt.asymm) hsorted hsorted'

/-- Settles O42: `Memory.read_above`, whose canonical form every reachable state has (`Reachable.inv`). -/
theorem noByteAboveMemoryIsEverListed : Obligations.NoByteAboveMemoryIsEverListed := by
  unfold Obligations.NoByteAboveMemoryIsEverListed
  refine ⟨fun m a => Memory.read_above, fun s a hs ha => ?_⟩
  obtain ⟨_, _, hm⟩ := hs.inv
  exact Memory.read_above hm ha

/-! ## A placed word -/

section
variable (s : State) (w : Word)

/-- Placing a word writes memory and nothing else. -/
theorem State.placeWord_eq_withMem : s.placeWord w = { s with mem := (s.placeWord w).mem } := by
  unfold State.placeWord
  split_ifs <;> rfl

@[simp] theorem State.placeWord_pc : (s.placeWord w).pc = s.pc := by rw [State.placeWord_eq_withMem]
@[simp] theorem State.placeWord_i : (s.placeWord w).i = s.i := by rw [State.placeWord_eq_withMem]
@[simp] theorem State.placeWord_disp : (s.placeWord w).disp = s.disp := by rw [State.placeWord_eq_withMem]
@[simp] theorem State.reg_placeWord (r : RegIdx) : (s.placeWord w).reg r = s.reg r := by
  rw [State.placeWord_eq_withMem]
  rfl

end

/-- The two bytes of a placed word are those its fetch reads (R204, R402). -/
theorem fetchWord_placeWord {s : State} (w : Word) (hm : s.mem.wf) (hpc : s.pc.toNat ≤ 0xFFD) :
    (s.placeWord w).fetchWord = .ok w := by
  have hpc' : (s.placeWord w).pc.toNat ≤ 0xFFD := by rwa [State.placeWord_pc]
  rw [fetchWord_of_pc_le hpc', State.placeWord_pc, placeWord_bytes w hm hpc, placeWord_bytes w hm hpc, if_pos rfl,
    if_neg (Nat.succ_ne_self _), if_pos rfl, wordOfBytes_highByte_lowByte]

/-- Settles O41: a number below 65536 is placed as its word; the rest is `placeWord`'s laws. -/
theorem placedWordIsTheOneFetched : Obligations.PlacedWordIsTheOneFetched := by
  unfold Obligations.PlacedWordIsTheOneFetched
  intro s w hm hpc hw
  have hplaced : s.withFetchWord 16 w = s.placeWord (BitVec.ofNat 16 w) := by
    rw [State.withFetchWord, Nat.mod_eq_of_lt (show w < 2 ^ 16 from hw)]
  rw [hplaced]
  refine ⟨fetchWord_placeWord _ hm hpc, State.wf_placeWord hm, s.reg_placeWord _, s.placeWord_pc _, s.placeWord_i _,
    s.placeWord_disp _, fun a hhi hlo => ?_⟩
  rw [placeWord_bytes _ hm hpc, if_neg hhi, if_neg hlo]

end Sys2Proof.Machine
end

