-- ==== Sys2Proof/Proofs/TransactionRules.lean ====
section
/-! The statements about the host's transactions (40_fetch_dispatch.md, 70_reset_and_hazards.md R709, R711): one STEP,
a run of STEPs, and the reads. -/

namespace Sys2Proof.Machine

/-- Settles O7: the fetch gives the big-endian word, and dispatch runs what it decodes to. -/
theorem stepRunsTheDecodedInstruction : Obligations.StepRunsTheDecodedInstruction := by
  unfold Obligations.StepRunsTheDecodedInstruction
  intro s i hpc hd
  calc step s = dispatchWord _ s.advancePc := step_of_fetchWord (fetchWord_of_pc_le hpc)
    _ = exec i s.advancePc := dispatchWord_of_decodeWord hd _

/-! ## Runs -/

theorem faultFree_zero (s : State) : FaultFree 0 s := List.forall_mem_nil _

/-- A run is fault-free when its first STEP is OK and the rest of it is fault-free (R709). -/
theorem faultFree_succ_iff (k : Nat) (s : State) :
    FaultFree (k + 1) s ↔ stepStatus s = some .ok ∧ FaultFree k (stateAfter s) :=
  List.forall_mem_cons

/-- Settles O38, by induction on the number of STEPs: the first STEP completes in the state both runs go on from, or
it faults, which is not OK and stops the host's run. -/
theorem faultFreeRunsAreTheRunsThatDoNotStop : Obligations.FaultFreeRunsAreTheRunsThatDoNotStop := by
  unfold Obligations.FaultFreeRunsAreTheRunsThatDoNotStop
  intro k
  induction k with
  | zero => exact fun s => iff_of_true (faultFree_zero s) rfl
  | succ k ih =>
    intro s
    obtain ⟨hstatuses, _⟩ := everyTransactionReturnsOneStatus
    rw [faultFree_succ_iff, afterSteps]
    obtain ⟨t, hnext, hafter, hok⟩ | ⟨f, hfault, hfailed, _⟩ := hstatuses s
    · rw [run_of_next core k hnext, hafter, ← ih t]
      exact and_iff_right hok
    · rw [run_of_fault core k hfault, hfailed]
      simp

/-! ## DISPLAY_READ and INSPECT -/

/-- DISPLAY_READ of a pixel's own coordinates answers the pixel (R114). -/
theorem displayRead_of_pixel (s : State) (x : Col) (y : Row) :
    displayRead s x.val y.val = .next (s.disp.pixel x y) := by
  rw [displayRead, dif_pos x.isLt, dif_pos y.isLt]

/-- A request outside the display is refused under its own coordinates, whichever of the two is out of range (R114). -/
theorem displayRead_of_outside (s : State) {col row : Nat} (h : 64 ≤ col ∨ 32 ≤ row) :
    displayRead s col row = .refused (.displayRequestOutOfRange col row) := by
  unfold displayRead
  split_ifs with hcol hrow
  · omega
  · rfl
  · rfl

/-- Settles O39: the two answers of DISPLAY_READ, and INSPECT by its definition. -/
theorem displayReadAnswersThePixel : Obligations.DisplayReadAnswersThePixel := by
  unfold Obligations.DisplayReadAnswersThePixel
  exact ⟨displayRead_of_pixel, fun s _ _ => displayRead_of_outside s, fun _ => rfl⟩

end Sys2Proof.Machine
end
